-- ==== Sys2Proof/Word.lean ====
section
/-! DEFINITION. The value types of the block: a trit as a closed type (R8, R46), the bit vectors that travel on wires
(R30 to R35), the names of the operand formats (R30) and of the nine modules (R1). -/

namespace Sys2Proof

/-- A balanced-ternary digit, "exactly one of {−1, 0, +1}" (R46). The type is closed, so that an invalid digit cannot be
written down at the value level (R8). -/
inductive Trit where
  | minus
  | zero
  | plus
deriving DecidableEq, Repr

/-- Two wires that carry one digit, or the non-digit code `0b10` (format TRIT, R31, R32). -/
abbrev TritCode := BitVec 2

/-- The bus of a sequence of `n` digits, `2n` wires (formats SEQ5, SEQ9, SEQ27, R33). -/
abbrev SeqBus (n : Nat) := BitVec (2 * n)

/-- The 4-bit select code `op[3:0]` of R41. -/
abbrev SelectCode := BitVec 4

/-- The operand formats of R30: TRIT, SEQ5/SEQ9/SEQ27 (`seq n`), INT, PK8/PK16/PK48 (`pk bits`) and BOOL. -/
inductive Format where
  | int
  | trit
  | seq (n : Nat)
  | pk (bits : Nat)
  | bool
deriving DecidableEq, Repr

/-- The nine modules of R1, in the order of R38. -/
inductive BlockModule where
  | ternaryDigitType
  | ternaryArithmeticLut
  | encoder5digit
  | encoder9digit
  | encoder27digit
  | decoder5digit
  | decoder9digit
  | decoder27digit
  | spareRangeDetector
deriving DecidableEq, Repr

/-- Why a select code names no operation: reserved (R41, codes 13 to 15), or an operation this build leaves out
(R7, `HAS_ISVALID`). -/
inductive DecodeError where
  | reserved (code : SelectCode)
  | notBuilt (code : SelectCode)
deriving DecidableEq, Repr

end Sys2Proof
end

