-- ==== Sys2Proof/Config.lean ====
section
/-! DEFINITION. What is fixed when the hardware is built (R6, R7, R13), and the free values `any_k` of R9. -/

namespace Sys2Proof

/-- The build parameters of R7 that change what the hardware does. `TRIT_W` is 2 in every build (D1), `TABLE_INIT` is
literal (D12), and `PACKED_BYTE_ORDER` is not observable at the block (D13), so none of the three is a field. -/
structure Build where
  /-- `INT_W`, the width of the integer ports of `create` and `value`; at least 2 (R34). -/
  intW : Nat
  /-- `STRICT_UNPACK`: whether the decoders have an `oor` output (R75). -/
  strictUnpack : Bool
  /-- `HAS_ISVALID`: whether `isValid` is built (R48). -/
  hasIsValid : Bool
deriving DecidableEq, Repr

/-- This hardware: `STRICT_UNPACK` off and `isValid` built (R7, R75, R48). `INT_W` is open (D4); DESIGN CHOICE: 8, the
width of the spec's own vectors (log 1). -/
abbrev Config.build : Build := ⟨8, false, true⟩

/-- `INT_W` of this build. -/
abbrev Config.intW : Nat := Config.build.intW

/-- `any_k` of R9: the `i`-th free draw of `k` bits. It has no body, so nothing is known of its value, and the counter `i`
lets it differ at every evaluation (log 2). -/
opaque Config.anyBits : (k : Nat) → (i : Nat) → BitVec k

/-- The spare threshold `M5` = 3^5 of R6, also `SPARE_LO`. -/
abbrev Config.m5 : Nat := 243

end Sys2Proof
end

