-- ==== Sys2Proof/Syntax.lean ====
section
/-! DEFINITION. The thirteen operations of R3, one constructor per row of spec/opcode_table.json. -/

namespace Sys2Proof

/-- The operations of the block, in the order of R41. They carry no operands: an operation's operands stand on the input
ports of its module, and no module decodes an opcode field (R30, R38). -/
inductive Instr where
  | create
  | isValid
  | value
  | negate
  | add
  | multiply
  | pack5
  | pack9
  | pack27
  | unpack5
  | unpack9
  | unpack27
  | isSpare
deriving DecidableEq, Repr

end Sys2Proof
end

