-- ==== Sys2Proof/WellFormed.lean ====
section
/-! DEFINITION. The checks on a build and on an operation within a build. -/

namespace Sys2Proof

/-- A build is one the spec allows: `INT_W` is at least 2 (R34). The other parameters may take either value (R7). -/
def Build.wellFormed (b : Build) : Bool :=
  decide (2 ≤ b.intW)

/-- An operation exists in a build: `isValid` "may be omitted" (R48, U9), the other twelve are always there (R3). -/
def Instr.wellFormed (b : Build) : Instr → Bool
  | .create => true
  | .isValid => b.hasIsValid
  | .value => true
  | .negate => true
  | .add => true
  | .multiply => true
  | .pack5 => true
  | .pack9 => true
  | .pack27 => true
  | .unpack5 => true
  | .unpack9 => true
  | .unpack27 => true
  | .isSpare => true

end Sys2Proof
end

