-- ==== Sys2Proof/Decode.lean ====
section
/-! DEFINITION. The select codes of R41: the decoder, total on all sixteen codes, and the encoder. -/

namespace Sys2Proof

/-- The operation a select code names in a build (table of R41). Codes 13 to 15 are "reserved by this spec; a model refuses
them"; code 1 names nothing in a build without `isValid`. -/
def decode (b : Build) (code : SelectCode) : Except DecodeError Instr :=
  match code.toNat with
  | 0 => .ok .create
  | 1 => if b.hasIsValid then .ok .isValid else .error (.notBuilt code)
  | 2 => .ok .value
  | 3 => .ok .negate
  | 4 => .ok .add
  | 5 => .ok .multiply
  | 6 => .ok .pack5
  | 7 => .ok .pack9
  | 8 => .ok .pack27
  | 9 => .ok .unpack5
  | 10 => .ok .unpack9
  | 11 => .ok .unpack27
  | 12 => .ok .isSpare
  | _ => .error (.reserved code)

/-- The select code of an operation (table of R41). -/
def encode : Instr → SelectCode
  | .create => 0x0#4
  | .isValid => 0x1#4
  | .value => 0x2#4
  | .negate => 0x3#4
  | .add => 0x4#4
  | .multiply => 0x5#4
  | .pack5 => 0x6#4
  | .pack9 => 0x7#4
  | .pack27 => 0x8#4
  | .unpack5 => 0x9#4
  | .unpack9 => 0xA#4
  | .unpack27 => 0xB#4
  | .isSpare => 0xC#4

/-- The select code in a table word: bits 3:0. DEDUCED from the table's mask `0xF`: no other bit of a word is part of the
code (log 9). -/
def selectOfTableWord (w : Nat) : SelectCode :=
  BitVec.ofNat 4 w

/-- What this build's decoder reads from a word numbered as spec/opcode_table.json numbers it. -/
def decodeTableWord (_nbits w : Nat) : Option Instr :=
  match decode Config.build (selectOfTableWord w) with
  | .ok i => some i
  | .error _ => none

end Sys2Proof
end

