-- ==== Sys2Proof/Machine/State.lean ====
section
/-! DEFINITION. What stands on the ports of the block (R38), the two fields of the model's own, and the state after reset.
The block has no mutable state (R10 to R14): an input port holds what the caller drives, an output field holds what the
caller read there at its last evaluation (log 4), and the constant tables are definitions, not state (R16). -/

namespace Sys2Proof.Machine

/-- The input ports of the nine modules (R38). The caller may present any pattern on any of them at any time (R103). -/
structure Inputs where
  /-- `v` of `ternary_digit_type` (INT). -/
  v : BitVec Config.intW
  /-- `d` of `ternary_digit_type` (TRIT). -/
  d : TritCode
  /-- `a` of `ternary_arithmetic_lut` (TRIT). -/
  a : TritCode
  /-- `b` of `ternary_arithmetic_lut` (TRIT). -/
  b : TritCode
  /-- `s[9:0]` of `balanced_ternary_encoder_5digit`. -/
  encS5 : SeqBus 5
  /-- `s[17:0]` of `balanced_ternary_encoder_9digit`. -/
  encS9 : SeqBus 9
  /-- `s[53:0]` of `balanced_ternary_encoder_27digit`. -/
  encS27 : SeqBus 27
  /-- `p[7:0]` of `balanced_ternary_decoder_5digit`. -/
  decP5 : BitVec 8
  /-- `p[15:0]` of `balanced_ternary_decoder_9digit`. -/
  decP9 : BitVec 16
  /-- `p[47:0]` of `balanced_ternary_decoder_27digit`. -/
  decP27 : BitVec 48
  /-- `p[7:0]` of `spare_range_detector`. -/
  spareP : BitVec 8
deriving DecidableEq, Repr

/-- The output ports of the nine modules (R38), as last read by the caller. An `oor` port is `none` where the build has no
such port (R75). -/
structure Outputs where
  /-- `t` = `create(v)`. -/
  t : TritCode
  /-- `ok` = `isValid(d)`. -/
  ok : Bool
  /-- `raw` = `value(d)`. -/
  raw : BitVec Config.intW
  /-- `neg` = `negate(a)`. -/
  neg : TritCode
  /-- `sum` = `add(a, b)`. -/
  sum : TritCode
  /-- `prod` = `multiply(a, b)`. -/
  prod : TritCode
  /-- `p[7:0]` = `pack5(s)`. -/
  encP5 : BitVec 8
  /-- `p[15:0]` = `pack9(s)`. -/
  encP9 : BitVec 16
  /-- `p[47:0]` = `pack27(s)`. -/
  encP27 : BitVec 48
  /-- `s[9:0]` = `unpack5(p)`. -/
  decS5 : SeqBus 5
  /-- `s[17:0]` = `unpack9(p)`. -/
  decS9 : SeqBus 9
  /-- `s[53:0]` = `unpack27(p)`. -/
  decS27 : SeqBus 27
  /-- `oor` of the 5-digit decoder. -/
  oor5 : Option Bool
  /-- `oor` of the 9-digit decoder. -/
  oor9 : Option Bool
  /-- `oor` of the 27-digit decoder. -/
  oor27 : Option Bool
  /-- `spare` = `isSpare(p)`. -/
  spare : Bool
deriving DecidableEq, Repr

/-- The ports, the select code the caller presents (R41; no module has an `op` port, log 5), and the number of free values
drawn so far (log 2). -/
structure State where
  select : SelectCode
  inp : Inputs
  out : Outputs
  draws : Nat
deriving DecidableEq, Repr

/-- Reasons to stop with a fault: none. "The block raises no exception, fault or trap, for any operation on any input,
defined or not" (R81). -/
inductive Fault where
deriving DecidableEq, Repr

/-- Reasons to refuse. Each is raised before any effect, so a refusal is safe. -/
inductive Refusal where
  /-- Raised by an arm of `exec` whose operation has no meaning yet; no arm of this model is one. Safe. -/
  | notModelled (mnemonic : String)
  /-- Raised by `step` on the select codes 13 to 15, which "a model refuses" (R41, U14). Safe. -/
  | reservedSelect (code : SelectCode)
  /-- Raised by `step` on the code of an operation this build leaves out (R7, `HAS_ISVALID`); this build leaves none out. Safe. -/
  | notBuilt (code : SelectCode)
deriving DecidableEq, Repr

/-- The inputs the model presents at reset. The spec gives an input port no reset value; DESIGN CHOICE: all wires 0 (log 3). -/
def Inputs.reset : Inputs where
  v := 0
  d := 0
  a := 0
  b := 0
  encS5 := 0
  encS9 := 0
  encS27 := 0
  decP5 := 0
  decP9 := 0
  decP27 := 0
  spareP := 0

/-- The outputs at reset: "the operation's rule applied to whatever the inputs hold; never a held or reset value" (R19),
for the inputs of `Inputs.reset`. That these are the rules' values is stated as
`Obligations.ResetIsSettled`. -/
def Outputs.reset : Outputs where
  t := 0b00
  ok := true
  raw := 0
  neg := 0b00
  sum := 0b00
  prod := 0b00
  encP5 := 121
  encP9 := 9841
  encP27 := 3812798742493
  decS5 := 0x3FF
  decS9 := 0x3FFFF
  decS27 := 0x3FFFFFFFFFFFFF
  oor5 := none
  oor9 := none
  oor27 := none
  spare := false

/-- The machine right after reset. A reset has nothing to act on (R93); the select code is the caller's and the counter is
the model's own, both 0 by DESIGN CHOICE (log 5, log 2). -/
def State.reset : State where
  select := 0
  inp := Inputs.reset
  out := Outputs.reset
  draws := 0

end Sys2Proof.Machine
end

