-- ==== Sys2Proof/Machine/Ops.lean ====
section
/-! DEFINITION. The notation of R9 as functions: trits and their codes (R31), base-b numerals (R58, R67), buses (R33), and
the operations on State that every meaning uses: taking a free value, reading the selected operation. There is no memory
(R20), and no exception is ever taken or returned from (R81, R86, R87), so no operation for either stands here. -/

namespace Sys2Proof.Machine

/-- `clamp(x) = max(−1, min(+1, x))` (R9). -/
def clamp (x : Int) : Int :=
  max (-1) (min 1 x)

/-- `u(d) = d + 1` (R9, R37): −1→0, 0→1, +1→2. -/
def u : Trit → Nat
  | .minus => 0
  | .zero => 1
  | .plus => 2

/-- `u⁻¹(k) = k − 1` on {0, 1, 2} (R9, R37). It is applied to remainders modulo 3 only. -/
def uInv : Nat → Trit
  | 0 => .minus
  | 1 => .zero
  | _ => .plus

/-- `code(d)`: the two's-complement spelling of a digit (table of R31). -/
def code : Trit → TritCode
  | .minus => 0b11#2
  | .zero => 0b00#2
  | .plus => 0b01#2

/-- `trit(c)`: the inverse of `code`, undefined on the non-digit code `0b10` (R31, R32). -/
def trit? (c : TritCode) : Option Trit :=
  match c.toNat with
  | 0 => some .zero
  | 1 => some .plus
  | 2 => none
  | _ => some .minus

/-- Horner's rule from index 0, the most significant digit: `acc = acc * base + d` (R58). -/
def horner (base : Nat) (ds : List Nat) : Nat :=
  ds.foldl (fun acc d => acc * base + d) 0

/-- The `n` low digits of `v` in a base, most significant first, by repeated division: the least significant digit is taken
first and stands last (R67). -/
def numeral (base : Nat) : (n : Nat) → (v : Nat) → List Nat
  | 0, _ => []
  | n + 1, v => numeral base n (v / base) ++ [v % base]

/-- The `n` pairs of a bus, index 0 first: the pair at index `i` is `s[2(n−1−i)+1 : 2(n−1−i)]` (R33). -/
def splitBus (n : Nat) (s : SeqBus n) : List TritCode :=
  (List.range n).map fun i => s.extractLsb' (2 * (n - 1 - i)) 2

/-- The bus `{c[0], c[1], ..., c[n−1]}` of `n` pairs (R33). -/
def joinBus (n : Nat) (cs : List TritCode) : SeqBus n :=
  BitVec.ofNat (2 * n) (horner 4 (cs.map BitVec.toNat))

/-- The digits that pairs spell; none if some pair is the non-digit code (R33 "defined exactly when none of the N pairs is
`0b10`"). -/
def readPairs : List TritCode → Option (List Trit)
  | [] => some []
  | c :: cs =>
    match trit? c, readPairs cs with
    | some d, some ds => some (d :: ds)
    | _, _ => none

/-- `bus_N(s)` (R33). -/
def bus (n : Nat) (ds : List Trit) : SeqBus n :=
  joinBus n (ds.map code)

/-- `seq_N(b)` (R33). -/
def seqOfBus (n : Nat) (s : SeqBus n) : Option (List Trit) :=
  readPairs (splitBus n s)

/-- The value a port shows: the defined result, or a free draw where the spec determines none (`any_k`, R9). A draw advances
the counter, so that the next one is another free value; a defined result changes nothing. -/
def resolve {k : Nat} (s : State) (r : Option (BitVec k)) : BitVec k × State :=
  match r with
  | some x => (x, s)
  | none => (Config.anyBits k s.draws, { s with draws := s.draws + 1 })

/-- The state in which the caller has read `o` on the output ports. -/
def withOut (s : State) (o : Outputs) : State :=
  { s with out := o }

/-- The state in which the caller drives `i` on the input ports. Outputs are not read again until an evaluation (log 4). -/
def present (s : State) (i : Inputs) : State :=
  { s with inp := i }

/-- The state in which the caller presents the select code `c` (R41). -/
def withSelect (s : State) (c : SelectCode) : State :=
  { s with select := c }

/-- The operation the caller selects: this machine's counterpart of an instruction fetch (R11: nothing is fetched). -/
def selected (s : State) : Except DecodeError Instr :=
  decode Config.build s.select

/-- A select code that names no operation is refused by name (R41). -/
def refusalOf : DecodeError → Refusal
  | .reserved c => .reservedSelect c
  | .notBuilt c => .notBuilt c

end Sys2Proof.Machine
end

