-- ==== Sys2Proof/Machine/Flags.lean ====
section
/-! DEFINITION. The one-bit predicates of the block. There are no flags: no operation sets a carry, overflow, zero or sign
flag, and saturation sets nothing (R12). The BOOL results of `isValid`, `isSpare` and `oor` are ordinary outputs (R45). -/

namespace Sys2Proof.Machine

/-- `d != 0b10`: the wire-level test of R48. -/
def isDigitCode (d : TritCode) : Bool :=
  d != 0b10#2

/-- Every pair of a bus is a digit code (the premise of R59 and obligation 1, R96). -/
def isDigitBus (n : Nat) (s : SeqBus n) : Bool :=
  (splitBus n s).all isDigitCode

/-- `v ≤ 3^n − 1`: a packed value an `n`-digit decoder defines (R67, R68). -/
def inRange (n v : Nat) : Bool :=
  decide (v < 3 ^ n)

/-- `isSpare(v) = (v ≥ 243)` (R79), for the one-byte width only (R80). -/
def isSpareValue (v : Nat) : Bool :=
  decide (Config.m5 ≤ v)

/-- The `oor` output of a decoder: `uint(p) ≥ 3^n` in a strict build, no port at all otherwise (R75). -/
def oorPort (strict : Bool) (n : Nat) {k : Nat} (p : BitVec k) : Option Bool :=
  if strict then some (decide (3 ^ n ≤ p.toNat)) else none

end Sys2Proof.Machine
end

