-- ==== Sys2Proof/Machine/Tables.lean ====
section
/-! DEFINITION. The read-only constants of R16: the arithmetic tables (R17, contents in R52 to R54) and the power-of-three
tables (R18). They are literals of the design, present at all times and written by nothing (R94). -/

namespace Sys2Proof.Machine

/-- Table `NEG` (R52). -/
def NEG : Trit → Trit
  | .minus => .plus
  | .zero => .zero
  | .plus => .minus

/-- Table `ADD` (R53), row `a`, column `b`. The cells (−1, −1) and (+1, +1) saturate. -/
def ADD : Trit → Trit → Trit
  | .minus, .minus => .minus
  | .minus, .zero => .minus
  | .minus, .plus => .zero
  | .zero, .minus => .minus
  | .zero, .zero => .zero
  | .zero, .plus => .plus
  | .plus, .minus => .zero
  | .plus, .zero => .plus
  | .plus, .plus => .plus

/-- Table `MUL` (R54), row `a`, column `b`. -/
def MUL : Trit → Trit → Trit
  | .minus, .minus => .plus
  | .minus, .zero => .zero
  | .minus, .plus => .minus
  | .zero, .minus => .zero
  | .zero, .zero => .zero
  | .zero, .plus => .zero
  | .plus, .minus => .minus
  | .plus, .zero => .zero
  | .plus, .plus => .plus

/-- Table `POW27` as R18 prints it. No operation reads a power table (R18, N3). -/
def POW27 : List Nat :=
  [1, 3, 9, 27, 81, 243, 729, 2187, 6561] ++
  [19683, 59049, 177147, 531441, 1594323, 4782969, 14348907, 43046721, 129140163] ++
  [387420489, 1162261467, 3486784401, 10460353203, 31381059609, 94143178827, 282429536481, 847288609443, 2541865828329]

/-- Table `POW9`: "entries 0 to 8" (R18). -/
def POW9 : List Nat := POW27.take 9

/-- Table `POW5`: "entries 0 to 4" (R18). -/
def POW5 : List Nat := POW27.take 5

end Sys2Proof.Machine
end

