-- ==== Sys2Proof/Machine/ArithmeticLut.lean ====
section
/-! DEFINITION. Module `ternary_arithmetic_lut`: `negate`, `add`, `multiply` by their tables (R51 to R57). A port function
answers `none` exactly where the spec gives `any_2` (R56). -/

namespace Sys2Proof.Machine

/-- `neg = negate(a)`; `neg` does not depend on `b` (R52, R38). -/
def negatePort (a : TritCode) : Option TritCode :=
  match trit? a with
  | some x => some (code (NEG x))
  | none => none

/-- `sum = add(a, b)`, saturating (R53). -/
def addPort (a b : TritCode) : Option TritCode :=
  match trit? a, trit? b with
  | some x, some y => some (code (ADD x y))
  | _, _ => none

/-- `prod = multiply(a, b)`, exact (R54). -/
def multiplyPort (a b : TritCode) : Option TritCode :=
  match trit? a, trit? b with
  | some x, some y => some (code (MUL x y))
  | _, _ => none

/-- Evaluate `negate`: read `a`, show `neg` (R52, R56). -/
def execNegate (s : State) : Host.Outcome State Fault Refusal :=
  let r := resolve s (negatePort s.inp.a)
  .next (withOut r.2 { s.out with neg := r.1 })

/-- Evaluate `add`: read `a` and `b`, show `sum` (R53, R56). -/
def execAdd (s : State) : Host.Outcome State Fault Refusal :=
  let r := resolve s (addPort s.inp.a s.inp.b)
  .next (withOut r.2 { s.out with sum := r.1 })

/-- Evaluate `multiply`: read `a` and `b`, show `prod` (R54, R56). -/
def execMultiply (s : State) : Host.Outcome State Fault Refusal :=
  let r := resolve s (multiplyPort s.inp.a s.inp.b)
  .next (withOut r.2 { s.out with prod := r.1 })

end Sys2Proof.Machine
end

