-- ==== Sys2Proof/Machine/Decoders.lean ====
section
/-! DEFINITION. The three decoders: `unpack5`, `unpack9`, `unpack27` (R67 to R77). -/

namespace Sys2Proof.Machine

/-- `unpackN` at the value level: the loop of R67 for `v < 3^n`, and no value otherwise. The numbers the loop would give
outside the range (R74) are not the hardware's and are not exposed. -/
def unpack? (n v : Nat) : Option (List Trit) :=
  if v < 3 ^ n then some ((numeral 3 n v).map uInv) else none

/-- `unpackN` on its ports (R68): the bus of the digits; `none`, that is `any_2N`, for `uint(p) ≥ 3^n` (R73). -/
def unpackPort (n : Nat) {k : Nat} (p : BitVec k) : Option (SeqBus n) :=
  match unpack? n p.toNat with
  | some ds => some (bus n ds)
  | none => none

/-- Evaluate `unpack5`: read `p[7:0]`, show `s[9:0]`, and `oor` in a strict build (R69, R73, R75). -/
def execUnpack5 (s : State) : Host.Outcome State Fault Refusal :=
  let r := resolve s (unpackPort 5 s.inp.decP5)
  .next (withOut r.2 { s.out with decS5 := r.1, oor5 := oorPort Config.build.strictUnpack 5 s.inp.decP5 })

/-- Evaluate `unpack9`: read `p[15:0]`, show `s[17:0]`, and `oor` in a strict build (R70, R73, R75). -/
def execUnpack9 (s : State) : Host.Outcome State Fault Refusal :=
  let r := resolve s (unpackPort 9 s.inp.decP9)
  .next (withOut r.2 { s.out with decS9 := r.1, oor9 := oorPort Config.build.strictUnpack 9 s.inp.decP9 })

/-- Evaluate `unpack27`: read `p[47:0]`, show `s[53:0]`, and `oor` in a strict build (R71, R73, R75). -/
def execUnpack27 (s : State) : Host.Outcome State Fault Refusal :=
  let r := resolve s (unpackPort 27 s.inp.decP27)
  .next (withOut r.2 { s.out with decS27 := r.1, oor27 := oorPort Config.build.strictUnpack 27 s.inp.decP27 })

end Sys2Proof.Machine
end

