-- ==== Sys2Proof/Machine/Digit.lean ====
section
/-! DEFINITION. Module `ternary_digit_type`: `create`, `isValid`, `value`, at the value level, on the ports, and as
evaluations of the machine (R46 to R50). -/

namespace Sys2Proof.Machine

/-- `create` at the value level: every integer other than −1, 0, +1 is normalised to 0 (R47). -/
def create (v : Int) : Trit :=
  if v = -1 then .minus else if v = 0 then .zero else if v = 1 then .plus else .zero

/-- `isValid` at the value level, over raw integers (R48). -/
def isValidRaw (raw : Int) : Bool :=
  decide (raw = -1) || decide (raw = 0) || decide (raw = 1)

/-- `value` at the value level: the digit as an integer, exact (R49). -/
def value : Trit → Int
  | .minus => -1
  | .zero => 0
  | .plus => 1

/-- `create` on its ports, at any `INT_W` (R47, R34). -/
def createPort {w : Nat} (v : BitVec w) : TritCode :=
  code (create v.toInt)

/-- `value` on its ports, at any `INT_W`: `raw = sext(d)`; the non-digit code reads as −2 (R49). -/
def valuePort (w : Nat) (d : TritCode) : BitVec w :=
  d.signExtend w

/-- Evaluate `create`: read `v`, show `t` (R47). -/
def execCreate (s : State) : Host.Outcome State Fault Refusal :=
  .next (withOut s { s.out with t := createPort s.inp.v })

/-- Evaluate `isValid`: read `d`, show `ok` (R48). -/
def execIsValid (s : State) : Host.Outcome State Fault Refusal :=
  .next (withOut s { s.out with ok := isDigitCode s.inp.d })

/-- Evaluate `value`: read `d`, show `raw` (R49). -/
def execValue (s : State) : Host.Outcome State Fault Refusal :=
  .next (withOut s { s.out with raw := valuePort Config.intW s.inp.d })

end Sys2Proof.Machine
end

