-- ==== Sys2Proof/Machine/Encoders.lean ====
section
/-! DEFINITION. The three encoders: `pack5`, `pack9`, `pack27` (R58 to R66). -/

namespace Sys2Proof.Machine

/-- `packN` at the value level: `acc = acc * 3 + (s[i] + 1)` from index 0 (R58), on a sequence of any length. -/
def pack (ds : List Trit) : Nat :=
  horner 3 (ds.map u)

/-- `packN` on its ports (R59): the number of the sequence as a `k`-bit vector; `none`, that is `any_k`, if some pair is the
non-digit code (R65). -/
def packPort (n k : Nat) (s : SeqBus n) : Option (BitVec k) :=
  match seqOfBus n s with
  | some ds => some (BitVec.ofNat k (pack ds))
  | none => none

/-- Evaluate `pack5`: read `s[9:0]`, show `p[7:0]` (R60, R65). -/
def execPack5 (s : State) : Host.Outcome State Fault Refusal :=
  let r := resolve s (packPort 5 8 s.inp.encS5)
  .next (withOut r.2 { s.out with encP5 := r.1 })

/-- Evaluate `pack9`: read `s[17:0]`, show `p[15:0]` (R61, R65). -/
def execPack9 (s : State) : Host.Outcome State Fault Refusal :=
  let r := resolve s (packPort 9 16 s.inp.encS9)
  .next (withOut r.2 { s.out with encP9 := r.1 })

/-- Evaluate `pack27`: read `s[53:0]`, show `p[47:0]` (R62, R65). -/
def execPack27 (s : State) : Host.Outcome State Fault Refusal :=
  let r := resolve s (packPort 27 48 s.inp.encS27)
  .next (withOut r.2 { s.out with encP27 := r.1 })

end Sys2Proof.Machine
end

