-- ==== Sys2Proof/Machine/SpareDetector.lean ====
section
/-! DEFINITION. Module `spare_range_detector`: `isSpare`, for one byte only (R78 to R80). -/

namespace Sys2Proof.Machine

/-- `spare = (uint(p) ≥ 243)`, total on all 256 bytes (R79). -/
def sparePort (p : BitVec 8) : Bool :=
  isSpareValue p.toNat

/-- Evaluate `isSpare`: read `p[7:0]`, show `spare` (R79). -/
def execIsSpare (s : State) : Host.Outcome State Fault Refusal :=
  .next (withOut s { s.out with spare := sparePort s.inp.spareP })

end Sys2Proof.Machine
end

