-- ==== Sys2Proof/Machine/Dispatch.lean ====
section
/-! DEFINITION. One arm per operation. -/

namespace Sys2Proof.Machine

def exec (i : Instr) (s : State) : Host.Outcome State Fault Refusal :=
  match i with
  | .create => Sys2Proof.Machine.execCreate s
  | .isValid => Sys2Proof.Machine.execIsValid s
  | .value => Sys2Proof.Machine.execValue s
  | .negate => Sys2Proof.Machine.execNegate s
  | .add => Sys2Proof.Machine.execAdd s
  | .multiply => Sys2Proof.Machine.execMultiply s
  | .pack5 => Sys2Proof.Machine.execPack5 s
  | .pack9 => Sys2Proof.Machine.execPack9 s
  | .pack27 => Sys2Proof.Machine.execPack27 s
  | .unpack5 => Sys2Proof.Machine.execUnpack5 s
  | .unpack9 => Sys2Proof.Machine.execUnpack9 s
  | .unpack27 => Sys2Proof.Machine.execUnpack27 s
  | .isSpare => Sys2Proof.Machine.execIsSpare s

end Sys2Proof.Machine
end

