-- ==== Sys2Proof/Machine/Step.lean ====
section
/-! DEFINITION. One step: the caller evaluates the operation it selects on the inputs it presents (R99, R103, log 6). -/

namespace Sys2Proof.Machine

/-- One evaluation. Nothing advances (R11): the select code and the inputs stay until the caller changes them. -/
def step (s : State) : Host.Outcome State Fault Refusal :=
  match selected s with
  | .ok i => exec i s
  | .error e => .refused (refusalOf e)

/-- `s` with the table word `w` presented as the select code, so that the next step evaluates its operation on the inputs
that `s` presents (log 5). -/
def State.withFetchWord (s : State) (_nbits w : Nat) : State :=
  withSelect s (selectOfTableWord w)

end Sys2Proof.Machine
end

