-- ==== Sys2Proof/Machine/Operands.lean ====
section
/-! DEFINITION. The operand forms of the block: its ports, their formats and modules (R30, R38), which ports each operation
reads and writes (R24, R41), and what a caller drives on a port or reads from one. -/

namespace Sys2Proof.Machine

/-- The input ports of R38, one per field of `Inputs`. -/
inductive InPort where
  | v | d | a | b | encS5 | encS9 | encS27 | decP5 | decP9 | decP27 | spareP
deriving DecidableEq, Repr

/-- The output ports of R38, one per field of `Outputs`. -/
inductive OutPort where
  | t | ok | raw | neg | sum | prod | encP5 | encP9 | encP27 | decS5 | decS9 | decS27 | oor5 | oor9 | oor27 | spare
deriving DecidableEq, Repr

/-- What travels on a port, one form per operand format of R30. A sequence is held as its pairs, index 0 first, so that a
pair may also be the non-digit code. -/
inductive Signal where
  | int (v : BitVec Config.intW)
  | trit (c : TritCode)
  | seq (cs : List TritCode)
  | pk8 (p : BitVec 8)
  | pk16 (p : BitVec 16)
  | pk48 (p : BitVec 48)
  | bool (b : Bool)
deriving DecidableEq, Repr

/-- The format of what travels (R30). -/
def Signal.format : Signal → Format
  | .int _ => .int
  | .trit _ => .trit
  | .seq cs => .seq cs.length
  | .pk8 _ => .pk 8
  | .pk16 _ => .pk 16
  | .pk48 _ => .pk 48
  | .bool _ => .bool

/-- The format of an input port (table of R38). -/
def InPort.format : InPort → Format
  | .v => .int
  | .d => .trit
  | .a => .trit
  | .b => .trit
  | .encS5 => .seq 5
  | .encS9 => .seq 9
  | .encS27 => .seq 27
  | .decP5 => .pk 8
  | .decP9 => .pk 16
  | .decP27 => .pk 48
  | .spareP => .pk 8

/-- The format of an output port (table of R38). -/
def OutPort.format : OutPort → Format
  | .t => .trit
  | .ok => .bool
  | .raw => .int
  | .neg => .trit
  | .sum => .trit
  | .prod => .trit
  | .encP5 => .pk 8
  | .encP9 => .pk 16
  | .encP27 => .pk 48
  | .decS5 => .seq 5
  | .decS9 => .seq 9
  | .decS27 => .seq 27
  | .oor5 => .bool
  | .oor9 => .bool
  | .oor27 => .bool
  | .spare => .bool

/-- The module an input port belongs to (table of R38). -/
def InPort.owner : InPort → BlockModule
  | .v => .ternaryDigitType
  | .d => .ternaryDigitType
  | .a => .ternaryArithmeticLut
  | .b => .ternaryArithmeticLut
  | .encS5 => .encoder5digit
  | .encS9 => .encoder9digit
  | .encS27 => .encoder27digit
  | .decP5 => .decoder5digit
  | .decP9 => .decoder9digit
  | .decP27 => .decoder27digit
  | .spareP => .spareRangeDetector

/-- The module an output port belongs to (table of R38). -/
def OutPort.owner : OutPort → BlockModule
  | .t => .ternaryDigitType
  | .ok => .ternaryDigitType
  | .raw => .ternaryDigitType
  | .neg => .ternaryArithmeticLut
  | .sum => .ternaryArithmeticLut
  | .prod => .ternaryArithmeticLut
  | .encP5 => .encoder5digit
  | .encP9 => .encoder9digit
  | .encP27 => .encoder27digit
  | .decS5 => .decoder5digit
  | .decS9 => .decoder9digit
  | .decS27 => .decoder27digit
  | .oor5 => .decoder5digit
  | .oor9 => .decoder9digit
  | .oor27 => .decoder27digit
  | .spare => .spareRangeDetector

/-- The module of an operation (tables of R3 and R41). -/
def moduleOf : Instr → BlockModule
  | .create => .ternaryDigitType
  | .isValid => .ternaryDigitType
  | .value => .ternaryDigitType
  | .negate => .ternaryArithmeticLut
  | .add => .ternaryArithmeticLut
  | .multiply => .ternaryArithmeticLut
  | .pack5 => .encoder5digit
  | .pack9 => .encoder9digit
  | .pack27 => .encoder27digit
  | .unpack5 => .decoder5digit
  | .unpack9 => .decoder9digit
  | .unpack27 => .decoder27digit
  | .isSpare => .spareRangeDetector

/-- The operand ports of an operation, in operand order (R38, R41). -/
def operandPorts : Instr → List InPort
  | .create => [.v]
  | .isValid => [.d]
  | .value => [.d]
  | .negate => [.a]
  | .add => [.a, .b]
  | .multiply => [.a, .b]
  | .pack5 => [.encS5]
  | .pack9 => [.encS9]
  | .pack27 => [.encS27]
  | .unpack5 => [.decP5]
  | .unpack9 => [.decP9]
  | .unpack27 => [.decP27]
  | .isSpare => [.spareP]

/-- The result port of an operation (R38, R41). -/
def resultPort : Instr → OutPort
  | .create => .t
  | .isValid => .ok
  | .value => .raw
  | .negate => .neg
  | .add => .sum
  | .multiply => .prod
  | .pack5 => .encP5
  | .pack9 => .encP9
  | .pack27 => .encP27
  | .unpack5 => .decS5
  | .unpack9 => .decS9
  | .unpack27 => .decS27
  | .isSpare => .spare

/-- Every output port an evaluation of the operation shows: its result port, and for a decoder its `oor` port, which is
absent unless the build is strict (R75). -/
def shownPorts : Instr → List OutPort
  | .create => [.t]
  | .isValid => [.ok]
  | .value => [.raw]
  | .negate => [.neg]
  | .add => [.sum]
  | .multiply => [.prod]
  | .pack5 => [.encP5]
  | .pack9 => [.encP9]
  | .pack27 => [.encP27]
  | .unpack5 => [.decS5, .oor5]
  | .unpack9 => [.decS9, .oor9]
  | .unpack27 => [.decS27, .oor27]
  | .isSpare => [.spare]

/-- What stands on an input port. -/
def readIn (i : Inputs) : InPort → Signal
  | .v => .int i.v
  | .d => .trit i.d
  | .a => .trit i.a
  | .b => .trit i.b
  | .encS5 => .seq (splitBus 5 i.encS5)
  | .encS9 => .seq (splitBus 9 i.encS9)
  | .encS27 => .seq (splitBus 27 i.encS27)
  | .decP5 => .pk8 i.decP5
  | .decP9 => .pk16 i.decP9
  | .decP27 => .pk48 i.decP27
  | .spareP => .pk8 i.spareP

/-- What stands on an output port; nothing where the build has no such port (R75). -/
def readOut (o : Outputs) : OutPort → Option Signal
  | .t => some (.trit o.t)
  | .ok => some (.bool o.ok)
  | .raw => some (.int o.raw)
  | .neg => some (.trit o.neg)
  | .sum => some (.trit o.sum)
  | .prod => some (.trit o.prod)
  | .encP5 => some (.pk8 o.encP5)
  | .encP9 => some (.pk16 o.encP9)
  | .encP27 => some (.pk48 o.encP27)
  | .decS5 => some (.seq (splitBus 5 o.decS5))
  | .decS9 => some (.seq (splitBus 9 o.decS9))
  | .decS27 => some (.seq (splitBus 27 o.decS27))
  | .oor5 => o.oor5.map .bool
  | .oor9 => o.oor9.map .bool
  | .oor27 => o.oor27.map .bool
  | .spare => some (.bool o.spare)

/-- Drive one input port with what travels in its format; nothing if the format is another's. -/
def drive (i : Inputs) : InPort → Signal → Option Inputs
  | .v, .int x => some { i with v := x }
  | .d, .trit c => some { i with d := c }
  | .a, .trit c => some { i with a := c }
  | .b, .trit c => some { i with b := c }
  | .encS5, .seq cs => if cs.length = 5 then some { i with encS5 := joinBus 5 cs } else none
  | .encS9, .seq cs => if cs.length = 9 then some { i with encS9 := joinBus 9 cs } else none
  | .encS27, .seq cs => if cs.length = 27 then some { i with encS27 := joinBus 27 cs } else none
  | .decP5, .pk8 p => some { i with decP5 := p }
  | .decP9, .pk16 p => some { i with decP9 := p }
  | .decP27, .pk48 p => some { i with decP27 := p }
  | .spareP, .pk8 p => some { i with spareP := p }
  | _, _ => none

/-- Drive several ports, the first signal on the first port; nothing if their numbers differ or a format does not fit. -/
def driveAll (i : Inputs) : List InPort → List Signal → Option Inputs
  | [], [] => some i
  | q :: qs, x :: xs =>
    match drive i q x with
    | some j => driveAll j qs xs
    | none => none
  | _, _ => none

end Sys2Proof.Machine
end

