-- ==== Sys2Proof/Machine/Netlist.lean ====
section
/-! DEFINITION. The written form of evaluations (R43): lines `name = op arg {, arg}`, a netlist in words. It is the caller's:
each line drives the operand ports, presents the select code, takes one step of the machine and reads the result port.
Names are numbers here; their spelling is not hardware (log 14). -/

namespace Sys2Proof.Machine

/-- An element of a bracketed list: a digit's name or a digit literal (R43). -/
inductive Elem where
  | name (x : Nat)
  | digit (d : Trit)
deriving DecidableEq, Repr

/-- An argument of R43: an earlier name, a literal, or one of the two wiring forms, `[a,b,-1,...]` and `s[i]` or `s[i..j]`. -/
inductive Arg where
  | name (x : Nat)
  | lit (v : Signal)
  | list (es : List Elem)
  | digitAt (x i : Nat)
  | slice (x i j : Nat)
deriving DecidableEq, Repr

/-- One line `name = op arg {, arg}`. -/
structure Line where
  name : Nat
  op : Instr
  args : List Arg
deriving DecidableEq, Repr

/-- What the names defined so far stand for, or, in the static check, their formats. -/
abbrev Env (α : Type) := List (Nat × α)

/-- What a name stands for. -/
def lookup {α : Type} (x : Nat) : Env α → Option α
  | [] => none
  | (y, v) :: e => if x = y then some v else lookup x e

/-- The pairs of a bracketed list, index 0 first. -/
def elemPairs (e : Env Signal) : List Elem → Option (List TritCode)
  | [] => some []
  | .digit d :: es => (elemPairs e es).map (code d :: ·)
  | .name x :: es =>
    match lookup x e, elemPairs e es with
    | some (.trit c), some cs => some (c :: cs)
    | _, _ => none

/-- The signal an argument stands for; nothing if a name is not defined or a wiring form does not fit. -/
def argSignal (e : Env Signal) : Arg → Option Signal
  | .name x => lookup x e
  | .lit v => some v
  | .list es => (elemPairs e es).map .seq
  | .digitAt x i =>
    match lookup x e with
    | some (.seq cs) => cs[i]?.map .trit
    | _ => none
  | .slice x i j =>
    match lookup x e with
    | some (.seq cs) => if i ≤ j ∧ j < cs.length then some (.seq ((cs.drop i).take (j + 1 - i))) else none
    | _ => none

/-- The signals of all arguments. -/
def argSignals (e : Env Signal) : List Arg → Option (List Signal)
  | [] => some []
  | g :: gs =>
    match argSignal e g, argSignals e gs with
    | some x, some xs => some (x :: xs)
    | _, _ => none

/-- Carry out one line: drive the operands, select the operation, take one step, read the result (R43, R103). Nothing if the
line's name is already defined, an argument does not fit, or the step does not answer a next state. -/
def evalLine (s : State) (e : Env Signal) (l : Line) : Option (State × Env Signal) :=
  if (lookup l.name e).isSome then none
  else
    match argSignals e l.args with
    | none => none
    | some xs =>
      match driveAll s.inp (operandPorts l.op) xs with
      | none => none
      | some i =>
        match step (withSelect (present s i) (encode l.op)) with
        | .next t => (readOut t.out (resultPort l.op)).map fun r => (t, (l.name, r) :: e)
        | .fault _ => none
        | .refused _ => none

/-- Carry out a netlist line by line. -/
def evalNetlist (s : State) (e : Env Signal) : List Line → Option (State × Env Signal)
  | [] => some (s, e)
  | l :: ls =>
    match evalLine s e l with
    | some (t, f) => evalNetlist t f ls
    | none => none

/-- The static check of a bracketed list against the formats of the names: digits only; its length. -/
def elemsFit (e : Env Format) : List Elem → Bool
  | [] => true
  | .digit _ :: es => elemsFit e es
  | .name x :: es => decide (lookup x e = some .trit) && elemsFit e es

/-- The static format of an argument. -/
def argFormat (e : Env Format) : Arg → Option Format
  | .name x => lookup x e
  | .lit v => some v.format
  | .list es => if elemsFit e es then some (.seq es.length) else none
  | .digitAt x i =>
    match lookup x e with
    | some (.seq n) => if i < n then some .trit else none
    | _ => none
  | .slice x i j =>
    match lookup x e with
    | some (.seq n) => if i ≤ j ∧ j < n then some (.seq (j + 1 - i)) else none
    | _ => none

/-- A line is well formed: its name is fresh ("each name is defined once"), its arguments use earlier names only, and they
have the formats of the operation's operands (R43, R41). -/
def lineFits (e : Env Format) (l : Line) : Bool :=
  (lookup l.name e).isNone && decide (l.args.map (argFormat e) = (operandPorts l.op).map fun q => some q.format)

/-- A netlist is well formed over the names defined before it. -/
def netlistFits (e : Env Format) : List Line → Bool
  | [] => true
  | l :: ls => lineFits e l && netlistFits ((l.name, (resultPort l.op).format) :: e) ls

end Sys2Proof.Machine
end

