-- ==== Sys2Proof/Machine/Wrapper.lean ====
section
/-! DEFINITION. A 27-digit packed value in a container wider than its 48-bit port (R36). The container is a wrapper's, of any
width `w` of at least 48 bits; the order of its bytes is not observable at the block and is not fixed (R21). -/

namespace Sys2Proof.Machine

/-- Encode side: "the bits above bit 47 are zero (`zext`)" (R36). -/
def widen48 (w : Nat) (p : BitVec 48) : BitVec w :=
  p.setWidth w

/-- Decode side: the container is read as a number, so "a container with any bit above 47 set" is out of range and gives
`any_54` (R36, R40, R73). -/
def unpackWide {w : Nat} (c : BitVec w) : Option (SeqBus 27) :=
  unpackPort 27 c

end Sys2Proof.Machine
end

