-- ==== Sys2Proof/Machine/Block.lean ====
section
/-! DEFINITION. The block as the combinational circuit of R38 and R99: all output ports as one function of the present input
ports, and evaluation of several operations one after another on the same inputs (R26). -/

namespace Sys2Proof.Machine

/-- Every output of the nine modules for the inputs `i` (R38). `free` supplies, port by port, a value where the spec gives
`any_k` (R9, R56, R65, R73): any `free` is an allowed circuit, and a port whose value is defined does not see it. -/
def blockOutputs (strict : Bool) (free : Outputs) (i : Inputs) : Outputs where
  t := createPort i.v
  ok := isDigitCode i.d
  raw := valuePort Config.intW i.d
  neg := (negatePort i.a).getD free.neg
  sum := (addPort i.a i.b).getD free.sum
  prod := (multiplyPort i.a i.b).getD free.prod
  encP5 := (packPort 5 8 i.encS5).getD free.encP5
  encP9 := (packPort 9 16 i.encS9).getD free.encP9
  encP27 := (packPort 27 48 i.encS27).getD free.encP27
  decS5 := (unpackPort 5 i.decP5).getD free.decS5
  decS9 := (unpackPort 9 i.decP9).getD free.decS9
  decS27 := (unpackPort 27 i.decP27).getD free.decS27
  oor5 := oorPort strict 5 i.decP5
  oor9 := oorPort strict 9 i.decP9
  oor27 := oorPort strict 27 i.decP27
  spare := sparePort i.spareP

/-- The outputs of `s` are the circuit's for the inputs of `s`: every port whose value is defined shows it, and a port whose
value is free may show anything (R19, R99). -/
abbrev Settled (s : State) : Prop :=
  s.out = blockOutputs Config.build.strictUnpack s.out s.inp

/-- Evaluate operations one after another on the inputs of `s`. -/
def evalList : List Instr → State → Host.Outcome State Fault Refusal
  | [], s => .next s
  | i :: is, s =>
    match exec i s with
    | .next t => evalList is t
    | .fault r => .fault r
    | .refused r => .refused r

end Sys2Proof.Machine
end

