-- ==== Sys2Proof/Safety.lean ====
section
/-! DEFINITION. What a caller must do for a result to mean what the rules say (R96 to R98, R103). -/

namespace Sys2Proof

open Machine

/-- The caller's obligation for one operation on the inputs it presents: obligation 1 (R96) for the tables and the encoders,
obligation 2 (R97) for `unpack5`, obligation 3 (R98) for `unpack9` and `unpack27`, none for the other four. The hardware
does not check it (R97, R103). -/
def CallerObligation (i : Instr) (p : Inputs) : Bool :=
  match i with
  | .create => true
  | .isValid => true
  | .value => true
  | .negate => isDigitCode p.a
  | .add => isDigitCode p.a && isDigitCode p.b
  | .multiply => isDigitCode p.a && isDigitCode p.b
  | .pack5 => isDigitBus 5 p.encS5
  | .pack9 => isDigitBus 9 p.encS9
  | .pack27 => isDigitBus 27 p.encS27
  | .unpack5 => !sparePort p.decP5
  | .unpack9 => decide (p.decP9.toNat ≤ 19682)
  | .unpack27 => decide (p.decP27.toNat ≤ 7625597484986)
  | .isSpare => true

/-- A safe evaluation: an operation of this hardware is selected and the caller meets its obligation. -/
def SafeToEvaluate (s : State) : Bool :=
  match selected s with
  | .ok i => CallerObligation i s.inp
  | .error _ => false

/-- The pair at index `i` of a bus of `n` digits, as R33 places it: `s[2(n−1−i)+1 : 2(n−1−i)]`. -/
def wirePair (n : Nat) (s : SeqBus n) (i : Nat) : TritCode :=
  s.extractLsb' (2 * (n - 1 - i)) 2

/-- No pair of the bus is the non-digit code (R32, R33). -/
def WireDigits (n : Nat) (s : SeqBus n) : Prop :=
  ∀ i, i < n → wirePair n s i ≠ 0b10#2

/-- The closed form of R63 on wires: the pair at index `i`, read as `uint(c + 1)` modulo 4 (R37), weighs `3^(n−1−i)`. -/
def packSum (n : Nat) (s : SeqBus n) : Nat :=
  ((List.range n).map fun i => (wirePair n s i + 1#2).toNat * 3 ^ (n - 1 - i)).sum

/-- The closed form of R76 on wires: the pair at index `i` spells `((v div 3^(n−1−i)) mod 3) − 1`. -/
def WireUnpacked (n v : Nat) (s : SeqBus n) : Prop :=
  ∀ i, i < n → wirePair n s i = BitVec.ofInt 2 (((v / 3 ^ (n - 1 - i) % 3 : Nat) : Int) - 1)

/-- The balanced-ternary integer that digits spell: Σ s[i]·3^(n−1−i) (R63). -/
def balancedSum (ds : List Trit) : Int :=
  ((List.range ds.length).map fun i => value (ds.getD i .zero) * 3 ^ (ds.length - 1 - i)).sum

/-- What is read on a port carries digits only: no TRIT and no pair of a SEQ is the non-digit code (R46, R32). -/
def DigitsOnly : Option Signal → Prop
  | some (.trit c) => c ≠ 0b10#2
  | some (.seq cs) => ∀ c ∈ cs, c ≠ 0b10#2
  | _ => True

end Sys2Proof
end

