-- ==== Sys2Proof/Certificates/Slice0/Obligations.lean ====
section
/-! DEFINITION. The statements for the provers, from the numbered rules of the spec. A free value (`any_k`, log 2) is
quantified in each of them or named by the model's own expression, `Config.anyBits` at the draw counter; every one holds
whatever `Config.anyBits` is and for every value of the counter. -/

open Sys2Proof Sys2Proof.Machine

/-! ## Select codes and the step -/

/-- R41: the thirteen select codes with formats and module, the reading of table words, and the refusal of codes 13 to 15. -/
def Obligations.SelectCodesNameTheThirteenOperations : Prop :=
  [Instr.create, .isValid, .value, .negate, .add, .multiply, .pack5, .pack9, .pack27, .unpack5, .unpack9, .unpack27,
    .isSpare].map (fun i => (encode i, (operandPorts i).map InPort.format, (resultPort i).format, moduleOf i)) =
    [ (0#4, [.int], .trit, .ternaryDigitType),
      (1#4, [.trit], .bool, .ternaryDigitType),
      (2#4, [.trit], .int, .ternaryDigitType),
      (3#4, [.trit], .trit, .ternaryArithmeticLut),
      (4#4, [.trit, .trit], .trit, .ternaryArithmeticLut),
      (5#4, [.trit, .trit], .trit, .ternaryArithmeticLut),
      (6#4, [.seq 5], .pk 8, .encoder5digit),
      (7#4, [.seq 9], .pk 16, .encoder9digit),
      (8#4, [.seq 27], .pk 48, .encoder27digit),
      (9#4, [.pk 8], .seq 5, .decoder5digit),
      (10#4, [.pk 16], .seq 9, .decoder9digit),
      (11#4, [.pk 48], .seq 27, .decoder27digit),
      (12#4, [.pk 8], .bool, .spareRangeDetector) ] ∧
  (List.range 16).map (decodeTableWord 8) =
    [some .create, some .isValid, some .value, some .negate, some .add, some .multiply, some .pack5, some .pack9,
      some .pack27, some .unpack5, some .unpack9, some .unpack27, some .isSpare, none, none, none] ∧
  ∀ s : State, 13 ≤ s.select.toNat → step s = .refused (.reservedSelect s.select)

/-- In every build, decoding the code of a well-formed operation gives it back, and a code that decodes is that operation's. -/
def Obligations.DecodeAndEncodeAgreeInEveryBuild : Prop :=
  (∀ (b : Build) (i : Instr), i.wellFormed b = true → decode b (encode i) = .ok i) ∧
  ∀ (b : Build) (c : SelectCode) (i : Instr), decode b c = .ok i → encode i = c ∧ i.wellFormed b = true

/-- A step evaluates the selected operation and nothing else; a presented table word is what the next step evaluates. -/
def Obligations.StepEvaluatesTheSelectedOperation : Prop :=
  (∀ (s : State) (i : Instr), decode Config.build s.select = .ok i → step s = exec i s) ∧
  ∀ (s : State) (nbits w : Nat) (i : Instr), decodeTableWord nbits w = some i →
    step (s.withFetchWord nbits w) = exec i { s with select := encode i }

/-- R81: every operation, on every input, answers a next state in which its result port shows something. -/
def Obligations.EveryOperationCompletesOnEveryInput : Prop :=
  ∀ (i : Instr) (s : State), ∃ t, exec i s = .next t ∧ (readOut t.out (resultPort i)).isSome = true

/-! ## The digit type -/

/-- R31 and R32: the codes of the three digits, their readings, and the fourth pattern; R37 on the unsigned form. -/
def Obligations.DigitCodesAreTwosComplement : Prop :=
  code .minus = 0b11#2 ∧ code .zero = 0b00#2 ∧ code .plus = 0b01#2 ∧
  (∀ d, (code d).toInt = value d ∧ trit? (code d) = some d ∧ code d ≠ 0b10#2 ∧ (code d + 1#2).toNat = u d) ∧
  ∀ c, trit? c = none ↔ c = 0b10#2

/-- R47: `create` on the machine and at the value level. -/
def Obligations.CreateNormalisesToADigit : Prop :=
  encode .create = 0#4 ∧
  (∀ s : State, exec .create s = .next { s with out := { s.out with
      t := if s.inp.v.toInt = -1 then 0b11#2 else if s.inp.v.toInt = 0 then 0b00#2
        else if s.inp.v.toInt = 1 then 0b01#2 else 0b00#2 } }) ∧
  ∀ v : Int, value (create v) = if v = -1 ∨ v = 0 ∨ v = 1 then v else 0

/-- R34: `create` and `value` do not depend on `INT_W`; each width is the restriction of the same function on integers. -/
def Obligations.IntegerPortsDoNotDependOnTheirWidth : Prop :=
  ∀ w : Nat, 2 ≤ w →
    (∀ v : BitVec w, createPort v = code (create v.toInt) ∧ ∀ w', w ≤ w' → createPort (v.signExtend w') = createPort v) ∧
    ∀ d : TritCode, (valuePort w d).toInt = d.toInt

/-- R48: `isValid` on the machine, total on the four patterns, and its three readings. -/
def Obligations.IsValidTestsForTheNonDigitCode : Prop :=
  encode .isValid = 1#4 ∧
  (∀ s : State, exec .isValid s = .next { s with out := { s.out with ok := decide (s.inp.d ≠ 0b10#2) } }) ∧
  (∀ raw : Int, isValidRaw raw = true ↔ raw = -1 ∨ raw = 0 ∨ raw = 1) ∧
  ∀ d : TritCode, isDigitCode d = isValidRaw d.toInt ∧ isDigitCode d = !(d.getLsbD 1 && !d.getLsbD 0)

/-- R49: `value` on the machine is the exact integer the wires spell, −2 for the non-digit code; `value` and `create`. -/
def Obligations.ValueIsTheExactRawInteger : Prop :=
  encode .value = 2#4 ∧
  (∀ s : State, exec .value s = .next { s with out := { s.out with raw := s.inp.d.signExtend Config.intW } }) ∧
  (∀ d : TritCode, (valuePort Config.intW d).toInt = d.toInt) ∧
  (valuePort Config.intW 0b10#2).toInt = -2 ∧
  (∀ d : TritCode, d ≠ 0b10#2 → createPort (valuePort Config.intW d) = d) ∧
  ∀ v : BitVec Config.intW, (valuePort Config.intW (createPort v)).toInt =
    if v.toInt = -1 ∨ v.toInt = 0 ∨ v.toInt = 1 then v.toInt else 0

/-! ## The arithmetic tables -/

/-- R52: `negate` of a digit. -/
def Obligations.NegateResult : Prop :=
  encode .negate = 3#4 ∧
  (∀ s : State, s.inp.a ≠ 0b10#2 →
    exec .negate s = .next { s with out := { s.out with neg := BitVec.ofInt 2 (-s.inp.a.toInt) } }) ∧
  (NEG .minus = .plus ∧ NEG .zero = .zero ∧ NEG .plus = .minus) ∧
  (∀ x, value (NEG x) = -value x ∧ NEG (NEG x) = x) ∧
  ∀ a : TritCode, a ≠ 0b10#2 →
    negatePort a = some (BitVec.ofBool (a.getLsbD 1 ^^ a.getLsbD 0) ++ BitVec.ofBool (a.getLsbD 0))

/-- R53: `add` of two digits is the clamped integer sum, with the table's corner cases. -/
def Obligations.AddSaturates : Prop :=
  encode .add = 4#4 ∧
  (∀ s : State, s.inp.a ≠ 0b10#2 → s.inp.b ≠ 0b10#2 →
    exec .add s = .next { s with out := { s.out with sum := BitVec.ofInt 2 (max (-1) (min 1 (s.inp.a.toInt + s.inp.b.toInt))) } }) ∧
  (∀ x y, value (ADD x y) = clamp (value x + value y)) ∧
  (∀ x y, value (ADD x y) ≠ value x + value y ↔ (x = y ∧ x ≠ .zero)) ∧
  (∀ x y, ADD x y = ADD y x) ∧ (∀ x, ADD x (NEG x) = .zero) ∧ (∀ x y, NEG (ADD x y) = ADD (NEG x) (NEG y)) ∧
  ∀ x y z, ADD (ADD x y) z ≠ ADD x (ADD y z) ↔
    (x, y, z) ∈ [(Trit.minus, Trit.minus, Trit.plus), (.minus, .plus, .plus), (.plus, .minus, .minus), (.plus, .plus, .minus)]

/-- R54: `multiply` of two digits is the integer product, with the table's corner cases. -/
def Obligations.MultiplyIsExact : Prop :=
  encode .multiply = 5#4 ∧
  (∀ s : State, s.inp.a ≠ 0b10#2 → s.inp.b ≠ 0b10#2 →
    exec .multiply s = .next { s with out := { s.out with prod := BitVec.ofInt 2 (s.inp.a.toInt * s.inp.b.toInt) } }) ∧
  (∀ x y, value (MUL x y) = value x * value y) ∧
  (∀ x y, MUL x y = MUL y x) ∧ (∀ x y z, MUL (MUL x y) z = MUL x (MUL y z)) ∧
  (∀ x, MUL .plus x = x ∧ MUL .minus x = NEG x ∧ MUL x x = if x = .zero then .zero else .plus) ∧
  ∀ x y z, MUL x (ADD y z) = ADD (MUL x y) (MUL x z)

/-- R56: on a non-digit `a` all three outputs are free; on a non-digit `b` and a digit `a`, `sum` and `prod` are free and
`neg` is `negate(a)`. On the machine the shown value is the free draw and no chosen one: `Config.anyBits` at the counter, which
moves on (the model's form of `any_2`, log 2). Nothing else changes. -/
def Obligations.NonDigitTableOperandGivesAnyValue : Prop :=
  (∀ s : State, s.inp.a = 0b10#2 →
    exec .negate s = .next { s with draws := s.draws + 1, out := { s.out with neg := Config.anyBits 2 s.draws } } ∧
    exec .add s = .next { s with draws := s.draws + 1, out := { s.out with sum := Config.anyBits 2 s.draws } } ∧
    exec .multiply s = .next { s with draws := s.draws + 1, out := { s.out with prod := Config.anyBits 2 s.draws } } ∧
    ∀ (strict : Bool) (x y z : TritCode), ∃ free,
      (blockOutputs strict free s.inp).neg = x ∧ (blockOutputs strict free s.inp).sum = y ∧
      (blockOutputs strict free s.inp).prod = z) ∧
  ∀ s : State, s.inp.a ≠ 0b10#2 → s.inp.b = 0b10#2 →
    exec .add s = .next { s with draws := s.draws + 1, out := { s.out with sum := Config.anyBits 2 s.draws } } ∧
    exec .multiply s = .next { s with draws := s.draws + 1, out := { s.out with prod := Config.anyBits 2 s.draws } } ∧
    exec .negate s = .next { s with out := { s.out with neg := BitVec.ofInt 2 (-s.inp.a.toInt) } } ∧
    ∀ (strict : Bool) (y z : TritCode), ∃ free,
      (blockOutputs strict free s.inp).sum = y ∧ (blockOutputs strict free s.inp).prod = z ∧
      (blockOutputs strict free s.inp).neg = BitVec.ofInt 2 (-s.inp.a.toInt)

/-! ## Sequences, encoders and decoders -/

/-- R33: where index `i` of a sequence sits on its bus; the inverse is defined exactly when no pair is `0b10`. -/
def Obligations.BusLayoutIsIndexZeroAtTheTop : Prop :=
  ∀ n : Nat,
    (∀ ds : List Trit, ds.length = n →
      (∀ i d, ds[i]? = some d → wirePair n (bus n ds) i = code d) ∧ seqOfBus n (bus n ds) = some ds) ∧
    ∀ s : SeqBus n, (seqOfBus n s = none ↔ ∃ i, i < n ∧ wirePair n s i = 0b10#2) ∧
      ∀ ds, seqOfBus n s = some ds → ds.length = n ∧ bus n ds = s

/-- R60: `pack5` on digits: the closed form with weights 81, 27, 9, 3, 1; the output is never spare; the 243 digit buses give
exactly the numbers 0 to 242; the rule's own numbers (17, not 88: conflict C1). -/
def Obligations.Pack5Result : Prop :=
  encode .pack5 = 6#4 ∧
  [packSum 5 0x3FF#10, packSum 5 0x000#10, packSum 5 0x155#10, packSum 5 0x3C5#10] = [0, 121, 242, 17] ∧
  (∀ x y : SeqBus 5, WireDigits 5 x → WireDigits 5 y → packSum 5 x = packSum 5 y → x = y) ∧
  (∀ v, v ≤ 242 → ∃ x : SeqBus 5, WireDigits 5 x ∧ packSum 5 x = v) ∧
  ∀ s : State, WireDigits 5 s.inp.encS5 →
    exec .pack5 s = .next { s with out := { s.out with encP5 := BitVec.ofNat 8 (packSum 5 s.inp.encS5) } } ∧
    packSum 5 s.inp.encS5 ≤ 242 ∧ sparePort (BitVec.ofNat 8 (packSum 5 s.inp.encS5)) = false

/-- R61: `pack9` on digits: the closed form; bit 15 of the output is 0; the rule's own numbers. -/
def Obligations.Pack9Result : Prop :=
  encode .pack9 = 7#4 ∧
  [packSum 9 0x3FFFF#18, packSum 9 0x00000#18, packSum 9 0x15555#18, packSum 9 0x1C71C#18] = [0, 9841, 19682, 14383] ∧
  ∀ s : State, WireDigits 9 s.inp.encS9 →
    exec .pack9 s = .next { s with out := { s.out with encP9 := BitVec.ofNat 16 (packSum 9 s.inp.encS9) } } ∧
    packSum 9 s.inp.encS9 ≤ 19682 ∧ (BitVec.ofNat 16 (packSum 9 s.inp.encS9)).getLsbD 15 = false

/-- R62: `pack27` on digits: the closed form; bits 47 to 43 of the output are 0; the rule's own numbers. -/
def Obligations.Pack27Result : Prop :=
  encode .pack27 = 8#4 ∧
  [packSum 27 0x3FFFFFFFFFFFFF#54, packSum 27 0x00000000000000#54, packSum 27 0x15555555555555#54,
    packSum 27 0x1FFFFFFFFFFFFF#54, packSum 27 0x3FFFFFFFFFFFFD#54, packSum 27 0x134D34D34D34D3#54] =
    [0, 3812798742493, 7625597484986, 5083731656658, 2, 6159136430181] ∧
  ∀ s : State, WireDigits 27 s.inp.encS27 →
    exec .pack27 s = .next { s with out := { s.out with encP27 := BitVec.ofNat 48 (packSum 27 s.inp.encS27) } } ∧
    packSum 27 s.inp.encS27 ≤ 7625597484986 ∧
    ∀ j, 43 ≤ j → (BitVec.ofNat 48 (packSum 27 s.inp.encS27)).getLsbD j = false

/-- R63: the two closed forms of pack, for every number of digits, and the bias at the three widths. -/
def Obligations.PackIsTheBalancedValuePlusABias : Prop :=
  (∀ ds : List Trit,
    pack ds = ((List.range ds.length).map fun i => u (ds.getD i .zero) * 3 ^ (ds.length - 1 - i)).sum ∧
    (pack ds : Int) = balancedSum ds + (3 ^ ds.length - 1) / 2 ∧
    -((3 ^ ds.length - 1) / 2) ≤ balancedSum ds ∧ balancedSum ds ≤ (3 ^ ds.length - 1) / 2) ∧
  ((3 ^ 5 - 1) / 2 = 121 ∧ (3 ^ 9 - 1) / 2 = 9841 ∧ (3 ^ 27 - 1) / 2 = 3812798742493)

/-- R64: range with its two ends, the all-zero sequence, bijection with inverse `unpackN`, lexicographic order, and the fit
of 3^N − 1 in the three containers. -/
def Obligations.PackIsAnOrderedBijection : Prop :=
  (∀ n : Nat,
    (∀ ds : List Trit, ds.length = n →
      pack ds ≤ 3 ^ n - 1 ∧ (pack ds = 0 ↔ ds = List.replicate n .minus) ∧
      (pack ds = 3 ^ n - 1 ↔ ds = List.replicate n .plus) ∧ unpack? n (pack ds) = some ds) ∧
    pack (List.replicate n .zero) = (3 ^ n - 1) / 2 ∧
    (∀ v, v ≤ 3 ^ n - 1 → ∃ ds : List Trit, ds.length = n ∧ pack ds = v) ∧
    ∀ ds es : List Trit, ds.length = n → es.length = n →
      (pack ds = pack es → ds = es) ∧ (pack ds < pack es ↔ ds.map value < es.map value)) ∧
  (3 ^ 5 ≤ 2 ^ 8 ∧ 3 ^ 9 ≤ 2 ^ 16 ∧ 3 ^ 27 ≤ 2 ^ 48)

/-- R65: a non-digit code on an encoder bus gives any value. On the machine the shown value is the free draw and no chosen one:
`Config.anyBits` at the counter, which moves on (the model's form of `any_B`, log 2). Nothing else changes. -/
def Obligations.NonDigitPackGivesAnyValue : Prop :=
  (∀ s : State, (∃ i, i < 5 ∧ wirePair 5 s.inp.encS5 i = 0b10#2) →
    exec .pack5 s = .next { s with draws := s.draws + 1, out := { s.out with encP5 := Config.anyBits 8 s.draws } } ∧
    ∀ (strict : Bool) (x : BitVec 8), ∃ free, (blockOutputs strict free s.inp).encP5 = x) ∧
  (∀ s : State, (∃ i, i < 9 ∧ wirePair 9 s.inp.encS9 i = 0b10#2) →
    exec .pack9 s = .next { s with draws := s.draws + 1, out := { s.out with encP9 := Config.anyBits 16 s.draws } } ∧
    ∀ (strict : Bool) (x : BitVec 16), ∃ free, (blockOutputs strict free s.inp).encP9 = x) ∧
  ∀ s : State, (∃ i, i < 27 ∧ wirePair 27 s.inp.encS27 i = 0b10#2) →
    exec .pack27 s = .next { s with draws := s.draws + 1, out := { s.out with encP27 := Config.anyBits 48 s.draws } } ∧
    ∀ (strict : Bool) (x : BitVec 48), ∃ free, (blockOutputs strict free s.inp).encP27 = x

/-- R66: after k digits the accumulator is at most 3^k − 1, and an accumulator of B bits with 3^N ≤ 2^B never wraps. -/
def Obligations.PackAccumulatorNeverOverflows : Prop :=
  (∀ (ds : List Trit) (k : Nat), k ≤ ds.length → pack (ds.take k) ≤ 3 ^ k - 1) ∧
  ∀ (ds : List Trit) (w : Nat), 3 ^ ds.length ≤ 2 ^ w →
    (ds.foldl (fun (acc : BitVec w) d => acc * BitVec.ofNat w 3 + BitVec.ofNat w (u d)) 0).toNat = pack ds

/-- R69: `unpack5` of 0 to 242. The `oor` port is absent in this build. -/
def Obligations.Unpack5Result : Prop :=
  encode .unpack5 = 9#4 ∧
  ∀ s : State, s.inp.decP5.toNat ≤ 242 →
    ∃ x : SeqBus 5, WireUnpacked 5 s.inp.decP5.toNat x ∧
      exec .unpack5 s = .next { s with out := { s.out with decS5 := x, oor5 := none } }

/-- R70: `unpack9` of 0 to 19682. -/
def Obligations.Unpack9Result : Prop :=
  encode .unpack9 = 10#4 ∧
  ∀ s : State, s.inp.decP9.toNat ≤ 19682 →
    ∃ x : SeqBus 9, WireUnpacked 9 s.inp.decP9.toNat x ∧
      exec .unpack9 s = .next { s with out := { s.out with decS9 := x, oor9 := none } }

/-- R71: `unpack27` of 0 to 7625597484986. -/
def Obligations.Unpack27Result : Prop :=
  encode .unpack27 = 11#4 ∧
  ∀ s : State, s.inp.decP27.toNat ≤ 7625597484986 →
    ∃ x : SeqBus 27, WireUnpacked 27 s.inp.decP27.toNat x ∧
      exec .unpack27 s = .next { s with out := { s.out with decS27 := x, oor27 := none } }

/-- R72 at the value level, both directions, for every number of digits. -/
def Obligations.PackAndUnpackAreInverse : Prop :=
  (∀ ds : List Trit, unpack? ds.length (pack ds) = some ds) ∧
  ∀ n v : Nat, v ≤ 3 ^ n - 1 → ∃ ds : List Trit, unpack? n v = some ds ∧ ds.length = n ∧ pack ds = v

/-- R72 on the machine: evaluate the encoder, put its output on the decoder's input, evaluate the decoder, and the encoder's
input bus stands on the decoder's output; and the other way round. For all three widths. -/
def Obligations.EncodeThenDecodeGivesTheBusBack : Prop :=
  (∀ s : State, WireDigits 5 s.inp.encS5 → ∃ t r, exec .pack5 s = .next t ∧
    exec .unpack5 (present t { t.inp with decP5 := t.out.encP5 }) = .next r ∧ r.out.decS5 = s.inp.encS5) ∧
  (∀ s : State, WireDigits 9 s.inp.encS9 → ∃ t r, exec .pack9 s = .next t ∧
    exec .unpack9 (present t { t.inp with decP9 := t.out.encP9 }) = .next r ∧ r.out.decS9 = s.inp.encS9) ∧
  (∀ s : State, WireDigits 27 s.inp.encS27 → ∃ t r, exec .pack27 s = .next t ∧
    exec .unpack27 (present t { t.inp with decP27 := t.out.encP27 }) = .next r ∧ r.out.decS27 = s.inp.encS27) ∧
  (∀ s : State, s.inp.decP5.toNat ≤ 242 → ∃ t r, exec .unpack5 s = .next t ∧
    exec .pack5 (present t { t.inp with encS5 := t.out.decS5 }) = .next r ∧ r.out.encP5 = s.inp.decP5) ∧
  (∀ s : State, s.inp.decP9.toNat ≤ 19682 → ∃ t r, exec .unpack9 s = .next t ∧
    exec .pack9 (present t { t.inp with encS9 := t.out.decS9 }) = .next r ∧ r.out.encP9 = s.inp.decP9) ∧
  ∀ s : State, s.inp.decP27.toNat ≤ 7625597484986 → ∃ t r, exec .unpack27 s = .next t ∧
    exec .pack27 (present t { t.inp with encS27 := t.out.decS27 }) = .next r ∧ r.out.encP27 = s.inp.decP27

/-- R76: closed form and closure of unpack on any port width. -/
def Obligations.UnpackedDigitsAreTheNumeral : Prop :=
  ∀ (n k : Nat) (p : BitVec k), p.toNat ≤ 3 ^ n - 1 →
    ∃ s, unpackPort n p = some s ∧ WireUnpacked n p.toNat s ∧ WireDigits n s ∧ isDigitBus n s = true

/-- R73: a packed input at or above 3^N gives any bus. On the machine the shown value is the free draw and no chosen sequence
(R74's least of all): `Config.anyBits` at the counter, which moves on (the model's form of `any_2N`, log 2). `oor` is absent in this build (R75, log 7). Nothing else changes. -/
def Obligations.OutOfRangeUnpackGivesAnyValue : Prop :=
  (∀ s : State, 243 ≤ s.inp.decP5.toNat →
    exec .unpack5 s = .next { s with draws := s.draws + 1, out := { s.out with
      decS5 := Config.anyBits (2 * 5) s.draws, oor5 := none } } ∧
    ∀ (strict : Bool) (x : SeqBus 5), ∃ free, (blockOutputs strict free s.inp).decS5 = x) ∧
  (∀ s : State, 19683 ≤ s.inp.decP9.toNat →
    exec .unpack9 s = .next { s with draws := s.draws + 1, out := { s.out with
      decS9 := Config.anyBits (2 * 9) s.draws, oor9 := none } } ∧
    ∀ (strict : Bool) (x : SeqBus 9), ∃ free, (blockOutputs strict free s.inp).decS9 = x) ∧
  ∀ s : State, 7625597484987 ≤ s.inp.decP27.toNat →
    exec .unpack27 s = .next { s with draws := s.draws + 1, out := { s.out with
      decS27 := Config.anyBits (2 * 27) s.draws, oor27 := none } } ∧
    ∀ (strict : Bool) (x : SeqBus 27), ∃ free, (blockOutputs strict free s.inp).decS27 = x

/-- R75: with `STRICT_UNPACK` off there is no `oor`; with it on, `oor` is `uint(p) ≥ 3^N`, the 5-digit one equals `isSpare`,
and the digits are as in the other build. -/
def Obligations.StrictVariantOnlyAddsOutOfRangeOutputs : Prop :=
  Config.build.strictUnpack = false ∧
  ∀ (free : Outputs) (i : Inputs),
    (blockOutputs false free i).oor5 = none ∧ (blockOutputs false free i).oor9 = none ∧
    (blockOutputs false free i).oor27 = none ∧
    (blockOutputs true free i).oor5 = some (decide (243 ≤ i.decP5.toNat)) ∧
    (blockOutputs true free i).oor9 = some (decide (19683 ≤ i.decP9.toNat)) ∧
    (blockOutputs true free i).oor27 = some (decide (7625597484987 ≤ i.decP27.toNat)) ∧
    (blockOutputs true free i).oor5 = some (sparePort i.decP5) ∧
    blockOutputs true free i = { blockOutputs false free i with
      oor5 := (blockOutputs true free i).oor5, oor9 := (blockOutputs true free i).oor9,
      oor27 := (blockOutputs true free i).oor27 }

/-- R36: a wider container is zero-extended on encode, and out of range on decode when any bit above 47 is set. -/
def Obligations.WideContainerIsZeroExtended : Prop :=
  ∀ w : Nat, 48 ≤ w →
    (∀ p : BitVec 48, (widen48 w p).toNat = p.toNat ∧ (∀ j, 48 ≤ j → (widen48 w p).getLsbD j = false) ∧
      unpackWide (widen48 w p) = unpackPort 27 p) ∧
    ∀ c : BitVec w, (∃ j, 48 ≤ j ∧ c.getLsbD j = true) → 2 ^ 48 ≤ c.toNat ∧ unpackWide c = none

/-- Vectors V51 to V53: packing a concatenation, padding with −1, and negating every digit. -/
def Obligations.PackOfConcatenationPaddingAndNegation : Prop :=
  (∀ ds es : List Trit, pack (ds ++ es) = pack ds * 3 ^ es.length + pack es) ∧
  (∀ (n : Nat) (ds : List Trit), pack (List.replicate n .minus ++ ds) = pack ds) ∧
  ∀ ds : List Trit, pack (ds.map NEG) = 3 ^ ds.length - 1 - pack ds

/-! ## The spare-range detector -/

/-- R79: `isSpare` on the machine, its Boolean form, and its relation to `pack5` and `unpack5`. -/
def Obligations.IsSpareIsTheRange243To255 : Prop :=
  encode .isSpare = 12#4 ∧
  (∀ s : State, exec .isSpare s = .next { s with out := { s.out with spare := decide (243 ≤ s.inp.spareP.toNat) } }) ∧
  (∀ p : BitVec 8, sparePort p = (p.getLsbD 7 && p.getLsbD 6 && p.getLsbD 5 && p.getLsbD 4 &&
    (p.getLsbD 3 || p.getLsbD 2 || (p.getLsbD 1 && p.getLsbD 0)))) ∧
  (((List.range 256).filter fun v => sparePort (BitVec.ofNat 8 v)) = (List.range 13).map (· + 243)) ∧
  (∀ ds : List Trit, ds.length = 5 → sparePort (BitVec.ofNat 8 (pack ds)) = false) ∧
  ∀ p : BitVec 8, sparePort p = false ↔ (unpackPort 5 p).isSome = true

/-! ## The machine as a whole -/

/-- R24: an operation has no effect besides its output. No input port, select code or other output port changes; the model's
draw counter moves by at most one (log 2). -/
def Obligations.AnOperationChangesOnlyItsOwnOutput : Prop :=
  ∀ (i : Instr) (s : State), ∃ t, exec i s = .next t ∧ t.select = s.select ∧ t.inp = s.inp ∧
    (t.draws = s.draws ∨ t.draws = s.draws + 1) ∧
    ∀ q : OutPort, q ∉ shownPorts i → readOut t.out q = readOut s.out q

/-- An evaluation shows what the combinational circuit gives for the present inputs. -/
def Obligations.EvaluationShowsTheCircuitOutput : Prop :=
  ∀ (i : Instr) (s : State), ∃ t free, exec i s = .next t ∧
    ∀ q ∈ shownPorts i, readOut t.out q = readOut (blockOutputs Config.build.strictUnpack free s.inp) q

/-- The caller's obligation of R96 to R98 is exactly what makes a result independent of every free value; where it is broken,
the circuit may show anything. -/
def Obligations.CallerObligationIsExactlyDefinedness : Prop :=
  ∀ (i : Instr) (p : Inputs) (strict : Bool),
    (CallerObligation i p = true → ∀ free free',
      readOut (blockOutputs strict free p) (resultPort i) = readOut (blockOutputs strict free' p) (resultPort i)) ∧
    (CallerObligation i p = false → ∀ free,
      readOut (blockOutputs strict free p) (resultPort i) = readOut free (resultPort i))

/-- R46: a trit is one of three values, an integer outside them is normalised to 0, and every digit output of every operation,
on inputs that meet the caller's obligation, is one of the three digits. -/
def Obligations.DigitOutputsAreDigits : Prop :=
  (∀ d : Trit, value d = -1 ∨ value d = 0 ∨ value d = 1) ∧
  (∀ v : Int, v ≠ -1 → v ≠ 0 → v ≠ 1 → create v = .zero) ∧
  ∀ (i : Instr) (s : State), CallerObligation i s.inp = true →
    ∃ t, exec i s = .next t ∧ ∀ q ∈ shownPorts i, DigitsOnly (readOut t.out q)

/-- R14: two evaluations of the same operation on the same defined inputs give the same outputs, whatever else differs. -/
def Obligations.OperationsAreReferentiallyTransparent : Prop :=
  ∀ (i : Instr) (s s' : State), CallerObligation i s.inp = true →
    (∀ q ∈ operandPorts i, readIn s.inp q = readIn s'.inp q) →
    ∃ t t', exec i s = .next t ∧ exec i s' = .next t' ∧ ∀ q ∈ shownPorts i, readOut t.out q = readOut t'.out q

/-- R38: an output of the circuit depends only on the operand ports of its operation, for one and the same free value. -/
def Obligations.EachOutputDependsOnItsOperandsOnly : Prop :=
  ∀ (i : Instr) (p p' : Inputs) (strict : Bool) (free : Outputs),
    (∀ q ∈ operandPorts i, readIn p q = readIn p' q) →
    ∀ q ∈ shownPorts i, readOut (blockOutputs strict free p) q = readOut (blockOutputs strict free p') q

/-- Evaluating an operation again on the same defined inputs changes nothing (R24). -/
def Obligations.EvaluatingAgainChangesNothing : Prop :=
  ∀ (i : Instr) (s : State), CallerObligation i s.inp = true → ∃ t, exec i s = .next t ∧ exec i t = .next t

/-- A step under a selected operation whose obligation is met completes without a free draw, and the next step changes nothing:
nothing advances (R11) and nothing is held (R24). -/
def Obligations.SafeStepsReachAFixedPoint : Prop :=
  ∀ s : State, SafeToEvaluate s = true → ∃ t, step s = .next t ∧ t.draws = s.draws ∧ step t = .next t

/-- R26: any number of evaluations on inputs that meet their obligations give the same state in any order. -/
def Obligations.OrderOfEvaluationsDoesNotMatter : Prop :=
  ∀ (s : State) (l l' : List Instr), l.Perm l' → (∀ i ∈ l, CallerObligation i s.inp = true) →
    ∃ t, evalList l s = .next t ∧ evalList l' s = .next t

/-- R19: at reset every output port shows its rule's value for the inputs, and the port values are those of the rules on
inputs of zeros. That the inputs are zeros is the model's choice (log 3). -/
def Obligations.ResetIsSettled : Prop :=
  Settled State.reset

/-- Whatever the state, a step keeps every output port in agreement with the circuit's rules for the present inputs. -/
def Obligations.SettledIsKeptByEveryStep : Prop :=
  ∀ s t : State, Settled s → step s = .next t → Settled t

/-- From ANY state, whatever its output ports show, evaluating all thirteen operations in any order and any number of times
leaves every output port a function of the present inputs (R19, R99: never a held value). That an output field
is the caller's last reading is the model's choice (log 4). -/
def Obligations.EvaluatingEverythingSettlesTheBlock : Prop :=
  ∀ (s : State) (l : List Instr), (∀ i : Instr, i ∈ l) →
    ∃ t, evalList l s = .next t ∧ t.inp = s.inp ∧ Settled t

/-- A netlist of R43 whose lines are well formed over the names defined before it is carried out to its end from any state:
each line's name then stands for a signal of its operation's result format. -/
def Obligations.WellFormedNetlistsAreCarriedOut : Prop :=
  ∀ (ls : List Line) (s : State) (e : Env Signal), netlistFits (e.map fun p => (p.1, p.2.format)) ls = true →
    ∃ t g, evalNetlist s e ls = some (t, g ++ e) ∧
      (g.map fun p => (p.1, p.2.format)) = (ls.map fun l => (l.name, (resultPort l.op).format)).reverse

/-- R26 on the netlist form: what a line stands for is determined by its arguments alone, whatever was evaluated before it and
whatever stands on the other ports. -/
def Obligations.NetlistLineResultIsItsArgumentsOnly : Prop :=
  ∀ (s s' : State) (e f : Env Signal) (l : Line) (t : State),
    evalLine s e l = some (t, f) → CallerObligation l.op t.inp = true → ∃ t', evalLine s' e l = some (t', f)

/-! ## Constants -/

/-- R18: entry k of each power-of-three table is 3^k, and the tables have 5, 9 and 27 entries. -/
def Obligations.PowerTablesHoldThePowersOfThree : Prop :=
  POW5 = (List.range 5).map (3 ^ ·) ∧ POW9 = (List.range 9).map (3 ^ ·) ∧ POW27 = (List.range 27).map (3 ^ ·)

/-- R6 and R102: the (N, W) pairs are (5, 1), (9, 2), (27, 6) bytes, each encoder's container holds 3^N values, its decoder has
the same pair, the largest packed values are those of R6, and the spare threshold is 3^5 with 13 codepoints above it. -/
def Obligations.PackedRangesFitTheirContainers : Prop :=
  [Instr.pack5, .pack9, .pack27].map (fun i => ((operandPorts i).map InPort.format, (resultPort i).format)) =
    [([.seq 5], .pk (8 * 1)), ([.seq 9], .pk (8 * 2)), ([.seq 27], .pk (8 * 6))] ∧
  [Instr.unpack5, .unpack9, .unpack27].map (fun i => ((operandPorts i).map InPort.format, (resultPort i).format)) =
    [([.pk (8 * 1)], .seq 5), ([.pk (8 * 2)], .seq 9), ([.pk (8 * 6)], .seq 27)] ∧
  (3 ^ 5 ≤ 2 ^ (8 * 1) ∧ 3 ^ 9 ≤ 2 ^ (8 * 2) ∧ 3 ^ 27 ≤ 2 ^ (8 * 6)) ∧
  (∀ n, n ∈ [5, 9, 27] → (unpack? n (3 ^ n - 1)).isSome = true ∧ (unpack? n (3 ^ n)).isSome = false) ∧
  (3 ^ 5 - 1 = 242 ∧ 3 ^ 9 - 1 = 19682 ∧ 3 ^ 27 - 1 = 7625597484986) ∧
  Config.m5 = 3 ^ 5 ∧ 2 ^ (8 * 1) - Config.m5 = 13
end

