-- ==== Sys2Proof/Laws/Digit.lean ====
section
/-! SUPPORT. Trits, their codes and their unsigned forms. -/

namespace Sys2Proof.Laws

open Sys2Proof.Machine

@[simp] theorem trit?_code (d : Trit) : trit? (code d) = some d := by
  cases d <;> rfl

theorem trit?_eq_some_iff {c : TritCode} {d : Trit} : trit? c = some d ↔ c = code d := by
  revert c d
  intro c d
  constructor
  · intro h
    have : ∀ c : TritCode, trit? c = some d → c = code d := by cases d <;> decide
    exact this c h
  · rintro rfl
    exact trit?_code d

theorem trit?_eq_none_iff (c : TritCode) : trit? c = none ↔ c = 0b10#2 := by
  revert c
  decide

theorem isDigitCode_iff (c : TritCode) : isDigitCode c = true ↔ c ≠ 0b10#2 := by
  simp [isDigitCode]

theorem isDigitCode_iff_trit (c : TritCode) : isDigitCode c = true ↔ ∃ d, c = code d := by
  constructor
  · intro h
    cases hd : trit? c with
    | none => exact absurd ((trit?_eq_none_iff c).1 hd) ((isDigitCode_iff c).1 h)
    | some d => exact ⟨d, trit?_eq_some_iff.1 hd⟩
  · rintro ⟨d, rfl⟩
    cases d <;> rfl

@[simp] theorem isDigitCode_code (d : Trit) : isDigitCode (code d) = true :=
  (isDigitCode_iff_trit _).2 ⟨d, rfl⟩

theorem code_injective : Function.Injective code := by
  intro d e h
  simpa [h] using (trit?_code d).symm

@[simp] theorem code_toInt (d : Trit) : (code d).toInt = value d := by
  cases d <;> rfl

@[simp] theorem uInv_u (d : Trit) : uInv (u d) = d := by
  cases d <;> rfl

theorem u_lt (d : Trit) : u d < 3 := by
  cases d <;> decide

theorem u_uInv {r : Nat} (h : r < 3) : u (uInv r) = r := by
  interval_cases r <;> rfl

theorem u_injective : Function.Injective u := by
  intro d e h
  simpa [h] using (uInv_u d).symm

/-- `u(d) = d + 1` (R9). -/
theorem u_eq_value_add_one (d : Trit) : (u d : Int) = value d + 1 := by
  cases d <;> rfl

/-- On wires `u(trit(c))` is `uint(c + 1)` modulo 4 (R37). -/
theorem code_add_one_toNat (d : Trit) : (code d + 1#2).toNat = u d := by
  cases d <;> rfl

end Sys2Proof.Laws
end

