-- ==== Sys2Proof/Laws/Numeral.lean ====
section
/-! SUPPORT. Horner's rule and repeated division are inverse to each other, in every base. The codec uses base 3, the buses
base 4. -/

namespace Sys2Proof.Laws

open Sys2Proof.Machine

@[simp] theorem horner_nil (b : Nat) : horner b [] = 0 := rfl

@[simp] theorem horner_concat (b : Nat) (ds : List Nat) (d : Nat) :
    horner b (ds ++ [d]) = horner b ds * b + d := by
  simp [horner]

theorem horner_append (b : Nat) (ds es : List Nat) :
    horner b (ds ++ es) = horner b ds * b ^ es.length + horner b es := by
  induction es using List.reverseRecOn with
  | nil => simp
  | append_singleton es e ih =>
    rw [← List.append_assoc, horner_concat, ih, horner_concat]
    simp only [List.length_append, List.length_singleton, pow_succ]
    ring

theorem horner_cons (b d : Nat) (ds : List Nat) : horner b (d :: ds) = d * b ^ ds.length + horner b ds := by
  have := horner_append b [d] ds
  simpa [horner] using this

/-- A numeral with digits below the base is below the base to its length. -/
theorem horner_lt {b : Nat} (ds : List Nat) (h : ∀ d ∈ ds, d < b) : horner b ds < b ^ ds.length := by
  induction ds using List.reverseRecOn with
  | nil => simp
  | append_singleton ds d ih =>
    have hd : d < b := h d (by simp)
    have hds : horner b ds < b ^ ds.length := ih fun e he => h e (by simp [he])
    rw [horner_concat, List.length_append, List.length_singleton, pow_succ]
    nlinarith

@[simp] theorem numeral_length (b n v : Nat) : (numeral b n v).length = n := by
  induction n generalizing v with
  | zero => rfl
  | succ n ih => simp [numeral, ih]

theorem numeral_lt {b : Nat} (hb : 0 < b) (n v : Nat) : ∀ d ∈ numeral b n v, d < b := by
  induction n generalizing v with
  | zero => simp [numeral]
  | succ n ih =>
    intro d hd
    simp only [numeral, List.mem_append, List.mem_singleton] at hd
    rcases hd with hd | rfl
    · exact ih _ d hd
    · exact Nat.mod_lt _ hb

/-- Reading the numeral of `v` back gives `v` reduced modulo `b ^ n`. -/
theorem horner_numeral_mod (b n v : Nat) : horner b (numeral b n v) = v % b ^ n := by
  induction n generalizing v with
  | zero => simp [numeral, Nat.mod_one]
  | succ n ih =>
    rw [numeral, horner_concat, ih, pow_succ, Nat.mul_comm (b ^ n) b, Nat.mod_mul]
    ring

theorem horner_numeral {b n v : Nat} (h : v < b ^ n) : horner b (numeral b n v) = v := by
  rw [horner_numeral_mod, Nat.mod_eq_of_lt h]

/-- The numeral of a numeral's value is the numeral. -/
theorem numeral_horner {b : Nat} (ds : List Nat) (h : ∀ d ∈ ds, d < b) :
    numeral b ds.length (horner b ds) = ds := by
  induction ds using List.reverseRecOn with
  | nil => rfl
  | append_singleton ds d ih =>
    have hd : d < b := h d (by simp)
    have hb : 0 < b := by omega
    have hds := ih fun e he => h e (by simp [he])
    rw [List.length_append, List.length_singleton, numeral, horner_concat,
      Nat.add_comm, Nat.add_mul_div_right _ _ hb, Nat.add_mul_mod_self_right,
      Nat.div_eq_of_lt hd, Nat.mod_eq_of_lt hd, Nat.zero_add, hds]

/-- The digit at index `i` is `(v div b^(n−1−i)) mod b`. -/
theorem numeral_getElem? {b n v i : Nat} (h : i < n) :
    (numeral b n v)[i]? = some (v / b ^ (n - 1 - i) % b) := by
  induction n generalizing v with
  | zero => omega
  | succ n ih =>
    rw [numeral]
    by_cases hi : i < n
    · rw [List.getElem?_append_left (by simpa using hi), ih hi, Nat.div_div_eq_div_mul, ← pow_succ']
      have : n - 1 - i + 1 = n + 1 - 1 - i := by omega
      rw [this]
    · have : i = n := by omega
      subst this
      rw [List.getElem?_append_right (by simp)]
      simp

end Sys2Proof.Laws
end

