-- ==== Sys2Proof/Laws/Bus.lean ====
section
/-! SUPPORT. A bus and its pairs (R33): splitting and joining are inverse, the pair at index `i` is
`s[2(n−1−i)+1 : 2(n−1−i)]`, and a sequence is read back exactly when no pair is the non-digit code. -/

namespace Sys2Proof.Laws

open Sys2Proof.Machine

theorem four_pow (n : Nat) : 4 ^ n = 2 ^ (2 * n) := by
  rw [pow_mul]
  norm_num

@[simp] theorem splitBus_length (n : Nat) (s : SeqBus n) : (splitBus n s).length = n := by
  simp [splitBus]

/-- The pair at index `i` of a bus, as R33 places it. -/
theorem splitBus_getElem? {n i : Nat} (s : SeqBus n) (h : i < n) :
    (splitBus n s)[i]? = some (s.extractLsb' (2 * (n - 1 - i)) 2) := by
  simp [splitBus, h]

/-- The pairs of a bus are its base-4 digits. -/
theorem splitBus_eq_numeral (n : Nat) (s : SeqBus n) : splitBus n s = (numeral 4 n s.toNat).map (BitVec.ofNat 2) := by
  apply List.ext_getElem?
  intro i
  by_cases h : i < n
  · rw [splitBus_getElem? s h, List.getElem?_map, numeral_getElem? h, Option.map_some]
    congr 1
    apply BitVec.eq_of_toNat_eq
    rw [BitVec.toNat_ofNat, BitVec.extractLsb'_toNat, Nat.shiftRight_eq_div_pow, four_pow]
    omega
  · rw [List.getElem?_eq_none (by simpa using h), List.getElem?_eq_none (by simpa using h)]

theorem joinBus_splitBus (n : Nat) (s : SeqBus n) : joinBus n (splitBus n s) = s := by
  have hmap : ((numeral 4 n s.toNat).map (BitVec.ofNat 2)).map BitVec.toNat = numeral 4 n s.toNat := by
    rw [List.map_map]
    conv_rhs => rw [← List.map_id (numeral 4 n s.toNat)]
    apply List.map_congr_left
    intro d hd
    have := numeral_lt (b := 4) (by decide) n s.toNat d hd
    simp only [Function.comp_apply, BitVec.toNat_ofNat, id_eq]
    omega
  have hlt : s.toNat < 4 ^ n := by
    rw [four_pow]
    exact s.isLt
  rw [joinBus, splitBus_eq_numeral, hmap, horner_numeral hlt]
  exact BitVec.eq_of_toNat_eq (by simp)

theorem splitBus_joinBus {n : Nat} {cs : List TritCode} (h : cs.length = n) : splitBus n (joinBus n cs) = cs := by
  have hd : ∀ d ∈ cs.map BitVec.toNat, d < 4 := by
    intro d hd
    obtain ⟨c, -, rfl⟩ := List.mem_map.1 hd
    exact c.isLt
  have hlt := horner_lt (b := 4) _ hd
  have hnum := numeral_horner (b := 4) _ hd
  rw [List.length_map, h] at hlt hnum
  rw [four_pow] at hlt
  rw [splitBus_eq_numeral, joinBus, BitVec.toNat_ofNat, Nat.mod_eq_of_lt hlt, hnum, List.map_map]
  conv_rhs => rw [← List.map_id cs]
  apply List.map_congr_left
  intro c _
  simp

theorem readPairs_map_code (ds : List Trit) : readPairs (ds.map code) = some ds := by
  induction ds with
  | nil => rfl
  | cons d ds ih => simp [readPairs, ih]

theorem readPairs_eq_some_iff {cs : List TritCode} {ds : List Trit} : readPairs cs = some ds ↔ cs = ds.map code := by
  constructor
  · intro h
    induction cs generalizing ds with
    | nil => simp_all [readPairs]
    | cons c cs ih =>
      simp only [readPairs] at h
      split at h
      · rename_i d es hd hes
        obtain rfl := Option.some.inj h
        simp [trit?_eq_some_iff.1 hd, ih hes]
      · cases h
  · rintro rfl
    exact readPairs_map_code ds

theorem readPairs_eq_none_iff {cs : List TritCode} : readPairs cs = none ↔ 0b10#2 ∈ cs := by
  induction cs with
  | nil => simp [readPairs]
  | cons c cs ih =>
    cases hc : trit? c with
    | none =>
      have hn : readPairs (c :: cs) = none := by simp [readPairs, hc]
      exact iff_of_true hn (by simp [(trit?_eq_none_iff c).1 hc])
    | some d =>
      have hne : ¬ 0b10#2 = c := fun he => by
        subst he
        exact absurd hc (by cases d <;> decide)
      cases hcs : readPairs cs with
      | none => simp [readPairs, hc, hcs, ih.1 hcs]
      | some ds =>
        have : 0b10#2 ∉ cs := fun hm => by simp [ih.2 hm] at hcs
        simp [readPairs, hc, hcs, hne, this]

theorem seqOfBus_eq_some_iff {n : Nat} {s : SeqBus n} {ds : List Trit} :
    seqOfBus n s = some ds ↔ ds.length = n ∧ s = bus n ds := by
  rw [seqOfBus, readPairs_eq_some_iff]
  constructor
  · intro h
    refine ⟨?_, ?_⟩
    · have := congrArg List.length h
      simpa using this.symm
    · rw [bus, ← h, joinBus_splitBus]
  · rintro ⟨hl, rfl⟩
    rw [bus, splitBus_joinBus (by simpa using hl)]

theorem seqOfBus_bus {n : Nat} {ds : List Trit} (h : ds.length = n) : seqOfBus n (bus n ds) = some ds :=
  seqOfBus_eq_some_iff.2 ⟨h, rfl⟩

theorem seqOfBus_eq_none_iff {n : Nat} {s : SeqBus n} : seqOfBus n s = none ↔ isDigitBus n s = false := by
  rw [seqOfBus, readPairs_eq_none_iff, isDigitBus, List.all_eq_false]
  constructor
  · intro h
    exact ⟨_, h, by decide⟩
  · rintro ⟨c, hc, hn⟩
    have : c = 0b10#2 := by
      by_contra hne
      exact hn ((isDigitCode_iff c).2 hne)
    exact this ▸ hc

theorem isDigitBus_iff {n : Nat} {s : SeqBus n} :
    isDigitBus n s = true ↔ ∃ ds : List Trit, ds.length = n ∧ s = bus n ds := by
  constructor
  · intro h
    cases hs : seqOfBus n s with
    | none => simp [seqOfBus_eq_none_iff.1 hs] at h
    | some ds => exact ⟨ds, seqOfBus_eq_some_iff.1 hs⟩
  · rintro ⟨ds, hl, rfl⟩
    by_contra hne
    have := seqOfBus_eq_none_iff.2 (by simpa using hne : isDigitBus n (bus n ds) = false)
    simp [seqOfBus_bus hl] at this

end Sys2Proof.Laws
end

