-- ==== Sys2Proof/Laws/Codec.lean ====
section
/-! SUPPORT. What the port functions of the tables, the encoders and the decoders answer, and when they answer nothing. -/

namespace Sys2Proof.Laws

open Sys2Proof.Machine

theorem negatePort_code (x : Trit) : negatePort (code x) = some (code (NEG x)) := by
  simp [negatePort]

theorem addPort_code (x y : Trit) : addPort (code x) (code y) = some (code (ADD x y)) := by
  simp [addPort]

theorem multiplyPort_code (x y : Trit) : multiplyPort (code x) (code y) = some (code (MUL x y)) := by
  simp [multiplyPort]

theorem negatePort_isSome (a : TritCode) : (negatePort a).isSome = isDigitCode a := by
  revert a
  decide

theorem addPort_isSome (a b : TritCode) : (addPort a b).isSome = (isDigitCode a && isDigitCode b) := by
  revert a b
  decide

theorem multiplyPort_isSome (a b : TritCode) : (multiplyPort a b).isSome = (isDigitCode a && isDigitCode b) := by
  revert a b
  decide

theorem pack_digits_lt (ds : List Trit) : ∀ k ∈ ds.map u, k < 3 := by
  intro k hk
  obtain ⟨d, -, rfl⟩ := List.mem_map.1 hk
  exact u_lt d

/-- The digits of a packed number are the sequence's (the loop of R67 on the number of R58). -/
theorem numeral_pack (ds : List Trit) : (numeral 3 ds.length (pack ds)).map uInv = ds := by
  have h := numeral_horner (b := 3) _ (pack_digits_lt ds)
  rw [List.length_map] at h
  rw [pack, h, List.map_map]
  conv_rhs => rw [← List.map_id ds]
  exact List.map_congr_left fun d _ => uInv_u d

theorem unpack?_length {n v : Nat} {ds : List Trit} (h : unpack? n v = some ds) : ds.length = n := by
  rw [unpack?] at h
  split at h
  · obtain rfl := Option.some.inj h
    simp
  · cases h

theorem unpack?_eq_none_iff {n v : Nat} : unpack? n v = none ↔ 3 ^ n ≤ v := by
  simp [unpack?]

theorem packPort_bus {n k : Nat} {ds : List Trit} (h : ds.length = n) :
    packPort n k (bus n ds) = some (BitVec.ofNat k (pack ds)) := by
  simp [packPort, seqOfBus_bus h]

theorem packPort_isSome {n k : Nat} (s : SeqBus n) : (packPort n k s).isSome = isDigitBus n s := by
  rw [packPort]
  cases h : seqOfBus n s with
  | none => simp [seqOfBus_eq_none_iff.1 h]
  | some ds => simp [isDigitBus_iff.2 ⟨ds, seqOfBus_eq_some_iff.1 h⟩]

theorem unpackPort_isSome {n k : Nat} (p : BitVec k) : (unpackPort n p).isSome = inRange n p.toNat := by
  rw [unpackPort, unpack?, inRange]
  split <;> simp_all

theorem unpackPort_of_lt {n k : Nat} {p : BitVec k} (h : p.toNat < 3 ^ n) :
    unpackPort n p = some (bus n ((numeral 3 n p.toNat).map uInv)) := by
  simp [unpackPort, unpack?, h]

/-- A packed number fits its port when `3^n ≤ 2^k` (R64, R66). -/
theorem pack_toNat {n k : Nat} (hk : 3 ^ n ≤ 2 ^ k) {ds : List Trit} (h : ds.length = n) :
    (BitVec.ofNat k (pack ds)).toNat = pack ds := by
  have hlt := horner_lt (b := 3) _ (pack_digits_lt ds)
  rw [List.length_map, h] at hlt
  rw [BitVec.toNat_ofNat, Nat.mod_eq_of_lt]
  exact lt_of_lt_of_le hlt hk

end Sys2Proof.Laws
end

