-- ==== Sys2Proof/Laws/PerInstr.lean ====
section
/-! SUPPORT. Per-operation lemmas about an operation as syntax. Family `Encoding`: the operation is built in this hardware, its
select code is one of 0 to 12, and this build's decoder reads the code back (R41). -/

namespace Sys2Proof.Laws.Encoding

/-- The select code of an operation is in the table and names it in this build. -/
def Statement (i : Instr) : Prop :=
  i.wellFormed Config.build = true ∧ (encode i).toNat ≤ 12 ∧ decodeTableWord 8 (encode i).toNat = some i

theorem create : Statement .create := by unfold Statement; decide
theorem isValid : Statement .isValid := by unfold Statement; decide
theorem value : Statement .value := by unfold Statement; decide
theorem negate : Statement .negate := by unfold Statement; decide
theorem add : Statement .add := by unfold Statement; decide
theorem multiply : Statement .multiply := by unfold Statement; decide
theorem pack5 : Statement .pack5 := by unfold Statement; decide
theorem pack9 : Statement .pack9 := by unfold Statement; decide
theorem pack27 : Statement .pack27 := by unfold Statement; decide
theorem unpack5 : Statement .unpack5 := by unfold Statement; decide
theorem unpack9 : Statement .unpack9 := by unfold Statement; decide
theorem unpack27 : Statement .unpack27 := by unfold Statement; decide
theorem isSpare : Statement .isSpare := by unfold Statement; decide

end Sys2Proof.Laws.Encoding
end

