-- ==== Sys2Proof/Laws/State.lean ====
section
/-! SUPPORT. One lemma per field for each update of State, and everything `resolve` can do. -/

namespace Sys2Proof.Laws

open Sys2Proof.Machine

@[simp] theorem withOut_select (s : State) (o : Outputs) : (withOut s o).select = s.select := rfl
@[simp] theorem withOut_inp (s : State) (o : Outputs) : (withOut s o).inp = s.inp := rfl
@[simp] theorem withOut_out (s : State) (o : Outputs) : (withOut s o).out = o := rfl
@[simp] theorem withOut_draws (s : State) (o : Outputs) : (withOut s o).draws = s.draws := rfl
@[simp] theorem withOut_withOut (s : State) (o p : Outputs) : withOut (withOut s o) p = withOut s p := rfl
@[simp] theorem withOut_self (s : State) : withOut s s.out = s := rfl

@[simp] theorem present_select (s : State) (i : Inputs) : (present s i).select = s.select := rfl
@[simp] theorem present_inp (s : State) (i : Inputs) : (present s i).inp = i := rfl
@[simp] theorem present_out (s : State) (i : Inputs) : (present s i).out = s.out := rfl
@[simp] theorem present_draws (s : State) (i : Inputs) : (present s i).draws = s.draws := rfl

@[simp] theorem withSelect_select (s : State) (c : SelectCode) : (withSelect s c).select = c := rfl
@[simp] theorem withSelect_inp (s : State) (c : SelectCode) : (withSelect s c).inp = s.inp := rfl
@[simp] theorem withSelect_out (s : State) (c : SelectCode) : (withSelect s c).out = s.out := rfl
@[simp] theorem withSelect_draws (s : State) (c : SelectCode) : (withSelect s c).draws = s.draws := rfl

variable {k : Nat}

/-- A defined result is shown and nothing else happens. -/
@[simp] theorem resolve_some (s : State) (x : BitVec k) : resolve s (some x) = (x, s) := rfl

/-- An open result is a free draw, and the counter moves on. -/
@[simp] theorem resolve_none (s : State) :
    resolve s (none : Option (BitVec k)) = (Config.anyBits k s.draws, { s with draws := s.draws + 1 }) := rfl

@[simp] theorem resolve_select (s : State) (r : Option (BitVec k)) : (resolve s r).2.select = s.select := by
  cases r <;> rfl

@[simp] theorem resolve_inp (s : State) (r : Option (BitVec k)) : (resolve s r).2.inp = s.inp := by
  cases r <;> rfl

@[simp] theorem resolve_out (s : State) (r : Option (BitVec k)) : (resolve s r).2.out = s.out := by
  cases r <;> rfl

theorem resolve_draws (s : State) (r : Option (BitVec k)) :
    (resolve s r).2.draws = if r.isSome then s.draws else s.draws + 1 := by
  cases r <;> rfl

/-- Everything `resolve` can do, in one line: the shown value is the defined one or the draw. -/
theorem resolve_value (s : State) (r : Option (BitVec k)) :
    (resolve s r).1 = r.getD (Config.anyBits k s.draws) := by
  cases r <;> rfl

/-- A result known to be defined is shown, whatever default stands for the open case. -/
theorem resolve_of_isSome {r : Option (BitVec k)} (s : State) (h : r.isSome = true) (d : BitVec k) :
    resolve s r = (r.getD d, s) := by
  cases r with
  | some x => rfl
  | none => cases h

end Sys2Proof.Laws
end

