-- ==== Sys2Proof/Laws/Safety.lean ====
section
/-! SUPPORT. The caller's obligation (R96 to R98) says of each operation that its port function answers a value; wire-level
forms of the digit and bus predicates. -/

namespace Sys2Proof.Laws

open Sys2Proof.Machine

theorem obligation_negate (p : Inputs) : CallerObligation .negate p = (negatePort p.a).isSome :=
  (negatePort_isSome p.a).symm

theorem obligation_add (p : Inputs) : CallerObligation .add p = (addPort p.a p.b).isSome :=
  (addPort_isSome p.a p.b).symm

theorem obligation_multiply (p : Inputs) : CallerObligation .multiply p = (multiplyPort p.a p.b).isSome :=
  (multiplyPort_isSome p.a p.b).symm

theorem obligation_pack5 (p : Inputs) : CallerObligation .pack5 p = (packPort 5 8 p.encS5).isSome :=
  (packPort_isSome p.encS5).symm

theorem obligation_pack9 (p : Inputs) : CallerObligation .pack9 p = (packPort 9 16 p.encS9).isSome :=
  (packPort_isSome p.encS9).symm

theorem obligation_pack27 (p : Inputs) : CallerObligation .pack27 p = (packPort 27 48 p.encS27).isSome :=
  (packPort_isSome p.encS27).symm

theorem sparePort_eq (p : BitVec 8) : sparePort p = !inRange 5 p.toNat := by
  simp only [sparePort, isSpareValue, inRange, Config.m5, Nat.reducePow]
  rw [Bool.eq_iff_iff]
  simp

theorem obligation_unpack5 (p : Inputs) : CallerObligation .unpack5 p = (unpackPort 5 p.decP5).isSome := by
  rw [unpackPort_isSome, CallerObligation, sparePort_eq, Bool.not_not]

theorem obligation_unpack9 (p : Inputs) : CallerObligation .unpack9 p = (unpackPort 9 p.decP9).isSome := by
  rw [unpackPort_isSome, CallerObligation, inRange, decide_eq_decide]
  omega

theorem obligation_unpack27 (p : Inputs) : CallerObligation .unpack27 p = (unpackPort 27 p.decP27).isSome := by
  rw [unpackPort_isSome, CallerObligation, inRange, decide_eq_decide]
  omega

/-- The pair at index `i`, by its place on the wires (R33), is the pair at index `i` of the split bus. -/
theorem splitBus_getElem?_wirePair {n i : Nat} (s : SeqBus n) (h : i < n) :
    (splitBus n s)[i]? = some (wirePair n s i) :=
  splitBus_getElem? s h

/-- On a bus built from digits the pair at index `i` is the code of the digit at index `i`. -/
theorem wirePair_bus {n i : Nat} {ds : List Trit} {d : Trit} (hl : ds.length = n) (h : ds[i]? = some d) :
    wirePair n (bus n ds) i = code d := by
  have hi : i < n := hl ▸ (List.getElem?_eq_some_iff.1 h).1
  have hp := splitBus_getElem?_wirePair (bus n ds) hi
  rw [bus, splitBus_joinBus (by simpa using hl), List.getElem?_map, h] at hp
  exact (Option.some.inj hp).symm

theorem wireDigits_iff {n : Nat} (s : SeqBus n) : WireDigits n s ↔ isDigitBus n s = true := by
  rw [isDigitBus, List.all_eq_true]
  constructor
  · intro h c hc
    obtain ⟨i, hi, rfl⟩ := List.getElem_of_mem hc
    have hn : i < n := by simpa using hi
    have hp := splitBus_getElem?_wirePair s hn
    rw [List.getElem?_eq_getElem hi] at hp
    exact (isDigitCode_iff _).2 (Option.some.inj hp ▸ h i hn)
  · intro h i hi
    obtain ⟨hlt, he⟩ := List.getElem?_eq_some_iff.1 (splitBus_getElem?_wirePair s hi)
    exact (isDigitCode_iff _).1 (he ▸ h _ (List.getElem_mem hlt))

end Sys2Proof.Laws
end

