-- ==== Sys2Proof/Tests/Slice0.lean ====
section
/-! SUPPORT. The model's own tests. Expected results come from the spec's tables and from the vectors of spec/95_test_vectors.md
(S and V numbers). The `witness_` theorems meet the hypotheses of the statements in Certificates/Slice0/Obligations.lean. -/

namespace Sys2Proof.Tests

open Sys2Proof.Machine

/-- The reset state with other inputs presented. -/
def stateWith (f : Inputs → Inputs) : State :=
  present State.reset (f Inputs.reset)

/-- What the outcome shows on the output ports. -/
def shown : Host.Outcome State Fault Refusal → Option Outputs
  | .next t => some t.out
  | _ => none

/-- The select code a step refuses. -/
def refusedCode : Host.Outcome State Fault Refusal → Option SelectCode
  | .refused (.reservedSelect c) => some c
  | _ => none

/-! ## Select codes (R41), one word a family written out, and the checks of WellFormed -/

theorem test_decode_create : decodeTableWord 8 0b00000000 = some .create := by decide
theorem test_decode_value : decodeTableWord 8 0b00000010 = some .value := by decide
theorem test_decode_multiply : decodeTableWord 8 0b00000101 = some .multiply := by decide
theorem test_decode_pack27 : decodeTableWord 8 0b00001000 = some .pack27 := by decide
theorem test_decode_unpack5 : decodeTableWord 8 0b00001001 = some .unpack5 := by decide
theorem test_decode_isSpare : decodeTableWord 8 0b00001100 = some .isSpare := by decide
theorem test_decode_reserved :
    [13, 14, 15].map (decodeTableWord 8) = [none, none, none] := by decide
theorem test_step_refuses_reserved :
    refusedCode (step (State.reset.withFetchWord 8 13)) = some 13#4 := by decide
theorem test_decode_isValid_not_built :
    decode ⟨8, false, false⟩ 1#4 = .error (.notBuilt 1#4) := by rfl
theorem test_every_other_code_decodes :
    ([0, 1, 3, 4, 6, 7, 10, 11].map (decodeTableWord 8)) =
      [some .create, some .isValid, some .negate, some .add, some .pack5, some .pack9, some .unpack9, some .unpack27] := by
  decide

theorem test_illformed_operation : Instr.wellFormed ⟨8, false, false⟩ .isValid = false := by decide
theorem test_illformed_build : Build.wellFormed ⟨1, false, true⟩ = false := by decide
theorem test_this_build_wellformed : Build.wellFormed Config.build = true := by decide

/-! ## One evaluation each -/

/-- S5: `create(-7)` on wires, `0xF9` to `0b00`. -/
theorem test_create_normalises :
    (shown (exec .create (stateWith fun i => { i with v := 0xF9 }))).map (·.t) = some 0b00 := by decide
/-- S5: `create(-1)`. -/
theorem test_create_minus_one :
    (shown (exec .create (stateWith fun i => { i with v := 0xFF }))).map (·.t) = some 0b11 := by decide
/-- V6. -/
theorem test_isValid_non_digit :
    (shown (exec .isValid (stateWith fun i => { i with d := 0b10 }))).map (·.ok) = some false := by decide
/-- V5. -/
theorem test_isValid_minus :
    (shown (exec .isValid (stateWith fun i => { i with d := 0b11 }))).map (·.ok) = some true := by decide
/-- V8. -/
theorem test_value_non_digit :
    (shown (exec .value (stateWith fun i => { i with d := 0b10 }))).map (·.raw) = some 0xFE := by decide
/-- V7. -/
theorem test_value_minus :
    (shown (exec .value (stateWith fun i => { i with d := 0b11 }))).map (·.raw) = some 0xFF := by decide
/-- R52, the example. -/
theorem test_negate_plus :
    (shown (exec .negate (stateWith fun i => { i with a := 0b01 }))).map (·.neg) = some 0b11 := by decide
/-- V19: `neg` of a digit is defined beside a non-digit `b`. -/
theorem test_negate_ignores_b :
    (shown (exec .negate (stateWith fun i => { i with a := 0b01, b := 0b10 }))).map (·.neg) = some 0b11 := by decide
/-- R53: saturation. -/
theorem test_add_saturates :
    (shown (exec .add (stateWith fun i => { i with a := 0b11, b := 0b11 }))).map (·.sum) = some 0b11 := by decide
/-- V11: the cell the source does not print. -/
theorem test_add_plus_minus :
    (shown (exec .add (stateWith fun i => { i with a := 0b01, b := 0b11 }))).map (·.sum) = some 0b00 := by decide
/-- R54, the example. -/
theorem test_multiply_signs :
    (shown (exec .multiply (stateWith fun i => { i with a := 0b01, b := 0b11 }))).map (·.prod) = some 0b11 := by decide
/-- S4: same sign. -/
theorem test_multiply_same_sign :
    (shown (exec .multiply (stateWith fun i => { i with a := 0b11, b := 0b11 }))).map (·.prod) = some 0b01 := by decide
/-- S6 with the correction of conflict C1: 17, not 88. -/
theorem test_pack5_seventeen :
    (shown (exec .pack5 (stateWith fun i => { i with encS5 := 0x3C5 }))).map (·.encP5) = some 17 := by decide
/-- V54: a non-digit pair is a free value; the fields the spec fixes are unchanged. -/
theorem test_pack5_non_digit_changes_nothing_else :
    (shown (exec .pack5 (stateWith fun i => { i with encS5 := 0x2C5 }))).map (·.encP9) = some 9841 := by decide
/-- V33. -/
theorem test_pack9_vector :
    (shown (exec .pack9 (stateWith fun i => { i with encS9 := 0x1C71C }))).map (·.encP9) = some 0x382F := by decide
/-- V32. -/
theorem test_pack9_maximum :
    (shown (exec .pack9 (stateWith fun i => { i with encS9 := 0x15555 }))).map (·.encP9) = some 19682 := by decide
/-- V43. -/
theorem test_pack27_vector :
    (shown (exec .pack27 (stateWith fun i => { i with encS27 := 0x134D34D34D34D3 }))).map (·.encP27) =
      some 0x059A09239865 := by decide
/-- V47. -/
theorem test_pack27_million_million :
    (shown (exec .pack27 (stateWith fun i => { i with encS27 := 0x33044C1C34D03C }))).map (·.encP27) =
      some 1000000000000 := by decide
/-- S6: `unpack5(88)`. -/
theorem test_unpack5_eighty_eight :
    (shown (exec .unpack5 (stateWith fun i => { i with decP5 := 88 }))).map (·.decS5) = some 0x0F4 := by decide
/-- V61: the last valid byte; no `oor` port in this build. -/
theorem test_unpack5_last_valid :
    (shown (exec .unpack5 (stateWith fun i => { i with decP5 := 242 }))).map (fun o => (o.decS5, o.oor5)) =
      some (0x155, none) := by decide
/-- V64, V37. -/
theorem test_unpack9_vector :
    (shown (exec .unpack9 (stateWith fun i => { i with decP9 := 12345 }))).map (·.decS9) = some 0x04537 := by decide
/-- V38 read from right to left. -/
theorem test_unpack9_low :
    (shown (exec .unpack9 (stateWith fun i => { i with decP9 := 6560 }))).map (·.decS9) = some 0x35555 := by decide
/-- V68. -/
theorem test_unpack27_million_million :
    (shown (exec .unpack27 (stateWith fun i => { i with decP27 := 1000000000000 }))).map (·.decS27) =
      some 0x33044C1C34D03C := by decide
/-- V69. -/
theorem test_unpack27_last_valid :
    (shown (exec .unpack27 (stateWith fun i => { i with decP27 := 7625597484986 }))).map (·.decS27) =
      some 0x15555555555555 := by decide
/-- S3. -/
theorem test_isSpare_242 :
    (shown (exec .isSpare (stateWith fun i => { i with spareP := 242 }))).map (·.spare) = some false := by decide
/-- S3. -/
theorem test_isSpare_243 :
    (shown (exec .isSpare (stateWith fun i => { i with spareP := 243 }))).map (·.spare) = some true := by decide
/-- V72 and V73: the strict build's extra output. -/
theorem test_strict_oor :
    (oorPort true 5 (243#8), oorPort true 5 (242#8)) = (some true, some false) := by decide
/-- R36: a container with bit 48 set has no defined digits. -/
theorem test_wide_container : unpackWide (281474976710656#64) = none := by decide

/-! ## The written form (R43) -/

/-- The last line of P1: `r = value s[2]` for `s` = `0x3C5`, digit 0. -/
theorem test_netlist_line :
    (evalLine State.reset [(0, .seq (splitBus 5 0x3C5))] ⟨1, .value, [.digitAt 0 2]⟩).map
      (fun r => lookup 1 r.2) = some (some (.int 0)) := by decide
/-- A name used before it is defined, a name defined twice, and an operand of another format are not well formed. -/
theorem test_netlist_illformed :
    [netlistFits [] [⟨1, .negate, [.name 0]⟩],
     netlistFits [(0, .trit)] [⟨0, .negate, [.name 0]⟩],
     netlistFits [] [⟨1, .unpack5, [.lit (.pk16 3)]⟩],
     netlistFits [(0, .seq 5)] [⟨1, .value, [.digitAt 0 5]⟩]] = [false, false, false, false] := by decide

/-! ## Witnesses -/

theorem witness_select_reserved :
    [13#4, 14#4, 15#4].all (fun c => decide (13 ≤ (withSelect State.reset c).select.toNat)) = true := by decide
theorem witness_encode_wellFormed : Instr.wellFormed ⟨2, true, false⟩ .unpack27 = true := by decide
theorem witness_decode_ok : decode ⟨2, true, true⟩ 1#4 = .ok .isValid := by rfl
theorem witness_step_selected : decode Config.build State.reset.select = .ok .create := by rfl
theorem witness_step_word : decodeTableWord 8 12 = some .isSpare := by decide
theorem witness_int_width : 2 ≤ 2 ∧ 2 ≤ 64 := by decide
theorem witness_valuePort_digit : (0b11#2 : TritCode) ≠ 0b10#2 := by decide
theorem witness_table_digits :
    (stateWith fun i => { i with a := 0b11, b := 0b01 }).inp.a ≠ 0b10#2 ∧
      (stateWith fun i => { i with a := 0b11, b := 0b01 }).inp.b ≠ 0b10#2 := by decide
theorem witness_table_non_digit_a : (stateWith fun i => { i with a := 0b10 }).inp.a = 0b10#2 := by decide
theorem witness_table_non_digit_b :
    (stateWith fun i => { i with a := 0b01, b := 0b10 }).inp.a ≠ 0b10#2 ∧
      (stateWith fun i => { i with a := 0b01, b := 0b10 }).inp.b = 0b10#2 := by decide
theorem witness_bus_sequence :
    [Trit.minus, .zero, .plus].length = 3 ∧ [Trit.minus, .zero, .plus][2]? = some .plus ∧
      seqOfBus 3 0b110001#6 = some [.minus, .zero, .plus] := by decide
theorem witness_pack5_digits : WireDigits 5 (stateWith fun i => { i with encS5 := 0x3C5 }).inp.encS5 := by
  unfold WireDigits; decide
theorem witness_pack5_injective : WireDigits 5 0x155#10 ∧ WireDigits 5 0x3FF#10 ∧ (242 : Nat) ≤ 242 := by
  unfold WireDigits; decide
theorem witness_pack9_digits : WireDigits 9 (stateWith fun i => { i with encS9 := 0x1C71C }).inp.encS9 := by
  unfold WireDigits; decide
theorem witness_pack27_digits : WireDigits 27 (stateWith fun i => { i with encS27 := 0x15555555555555 }).inp.encS27 := by
  unfold WireDigits; decide
theorem witness_pack_order :
    [Trit.minus, .plus].length = 2 ∧ [Trit.zero, .minus].length = 2 ∧ (8 : Nat) ≤ 3 ^ 2 - 1 ∧
      pack [.minus, .plus] < pack [.zero, .minus] := by decide
theorem witness_pack5_non_digit :
    ∃ i, i < 5 ∧ wirePair 5 (stateWith fun i => { i with encS5 := 0x2C5 }).inp.encS5 i = 0b10#2 := ⟨0, by decide⟩
theorem witness_pack9_non_digit :
    ∃ i, i < 9 ∧ wirePair 9 (stateWith fun i => { i with encS9 := 2 }).inp.encS9 i = 0b10#2 := ⟨8, by decide⟩
theorem witness_pack27_non_digit :
    ∃ i, i < 27 ∧ wirePair 27 (stateWith fun i => { i with encS27 := 2 }).inp.encS27 i = 0b10#2 := ⟨26, by decide⟩
theorem witness_accumulator :
    2 ≤ [Trit.plus, .plus, .plus].length ∧ 3 ^ [Trit.plus, .plus, .plus, .plus, .plus].length ≤ 2 ^ 8 := by decide
theorem witness_unpack_in_range :
    (stateWith fun i => { i with decP5 := 242 }).inp.decP5.toNat ≤ 242 ∧
      (stateWith fun i => { i with decP9 := 19682 }).inp.decP9.toNat ≤ 19682 ∧
      (stateWith fun i => { i with decP27 := 7625597484986 }).inp.decP27.toNat ≤ 7625597484986 := by decide
theorem witness_unpack_out_of_range :
    243 ≤ (stateWith fun i => { i with decP5 := 243 }).inp.decP5.toNat ∧
      19683 ≤ (stateWith fun i => { i with decP9 := 19683 }).inp.decP9.toNat ∧
      7625597484987 ≤ (stateWith fun i => { i with decP27 := 7625597484987 }).inp.decP27.toNat := by decide
theorem witness_numeral_range : (80#16).toNat ≤ 3 ^ 4 - 1 := by decide
theorem witness_wide_container :
    48 ≤ 64 ∧ ∃ j, 48 ≤ j ∧ (281474976710656#64).getLsbD j = true := ⟨by decide, 48, by decide⟩
theorem witness_spare_length : [Trit.plus, .plus, .plus, .plus, .plus].length = 5 := by decide
theorem witness_create_outside : (5 : Int) ≠ -1 ∧ (5 : Int) ≠ 0 ∧ (5 : Int) ≠ 1 := by decide
theorem witness_frame_port : OutPort.sum ∉ shownPorts .negate := by decide
theorem witness_obligation_met :
    [Instr.create, .isValid, .value, .negate, .add, .multiply, .pack5, .pack9, .pack27, .unpack5, .unpack9, .unpack27,
      .isSpare].all (fun i => CallerObligation i State.reset.inp) = true := by decide
theorem witness_obligation_broken :
    CallerObligation .unpack9 (stateWith fun i => { i with decP9 := 65535 }).inp = false := by decide
theorem witness_safe_step : SafeToEvaluate (State.reset.withFetchWord 8 9) = true := by decide
theorem witness_same_operands :
    ∀ q ∈ operandPorts .add, readIn State.reset.inp q = readIn (stateWith fun i => { i with v := 7 }).inp q := by decide
theorem witness_permutation :
    [Instr.add, .pack5].Perm [.pack5, .add] ∧ ∀ i ∈ [Instr.add, .pack5], CallerObligation i State.reset.inp = true :=
  ⟨List.Perm.swap _ _ _, by decide⟩
theorem witness_settled_step :
    Settled { State.reset with select := 4#4 } ∧ ∃ t, step { State.reset with select := 4#4 } = .next t :=
  ⟨by decide, _, rfl⟩
theorem witness_all_operations :
    ∀ i : Instr, i ∈ [Instr.isSpare, .unpack27, .unpack9, .unpack5, .pack27, .pack9, .pack5, .multiply, .add, .negate,
      .value, .isValid, .create] := by
  intro i; cases i <;> decide
/-- Lines of P1 of spec/95_test_vectors.md: create a digit, pack a list, guard, unpack, read a digit. -/
theorem witness_netlist :
    netlistFits (([] : Env Signal).map fun p => (p.1, p.2.format))
      [⟨0, .create, [.lit (.int 5)]⟩,
       ⟨1, .pack5, [.list [.digit .minus, .digit .minus, .name 0, .digit .plus, .digit .plus]]⟩,
       ⟨2, .isSpare, [.name 1]⟩,
       ⟨3, .unpack5, [.name 1]⟩,
       ⟨4, .value, [.digitAt 3 2]⟩] = true := by decide
theorem witness_netlist_line :
    ∃ t f, evalLine State.reset [(0, .trit 0b11)] ⟨1, .negate, [.name 0]⟩ = some (t, f) ∧
      CallerObligation .negate t.inp = true := ⟨_, _, rfl, by decide⟩

end Sys2Proof.Tests
end

section
/-! PROOFS. The statement about the scope of the block (R6): the digit counts, the containers and the packed ranges. -/

namespace Sys2Proof.Proofs.Scope

open Sys2Proof.Machine

/-- The packed range of R6 at the value level: `unpackN` has a value exactly below `3^N`. -/
theorem unpack?_isSome_iff {n v : Nat} : (unpack? n v).isSome = true ↔ v < 3 ^ n := by
  rw [Option.isSome_iff_ne_none, ne_eq, Laws.unpack?_eq_none_iff, not_le]

/-- The largest valid packed value of R6, at every digit count. -/
theorem unpack?_largest_isSome (n : Nat) : (unpack? n (3 ^ n - 1)).isSome = true :=
  unpack?_isSome_iff.2 (Nat.sub_one_lt_of_lt (Nat.pow_pos (by decide : 0 < 3)))

/-- The first number outside the packed range of R6, at every digit count. -/
theorem unpack?_pow_eq_none (n : Nat) : unpack? n (3 ^ n) = none :=
  Laws.unpack?_eq_none_iff.2 le_rfl

/-- Settles O48: the formats by evaluation of the port tables, the two ends of each packed range from the range of
`unpack?` at every digit count, and the constants by arithmetic. -/
theorem packedRangesFitTheirContainers : Obligations.PackedRangesFitTheirContainers := by
  refine ⟨?encoders, ?decoders, ?fits, ?ends, ?largest, ?threshold, ?spares⟩
  case encoders => rfl
  case decoders => rfl
  case fits => decide
  case ends =>
    intro n _
    exact ⟨unpack?_largest_isSome n, by rw [unpack?_pow_eq_none, Option.isSome_none]⟩
  case largest => decide
  case threshold => rfl
  case spares => rfl

end Sys2Proof.Proofs.Scope
end

section
/-! PROOFS. What one evaluation does, in one equation, and what the circuit shows on one output port: the value the rules
define there, or the free one. The statements about evaluations and steps start from these. -/

namespace Sys2Proof.Proofs.Evaluation

open Sys2Proof.Machine

variable {i : Instr} {s t : State} {p p' : Inputs} {q : OutPort} {o o' : Outputs} {strict : Bool}

/-! ## What is read on the ports -/

theorem splitBus_injective (n : Nat) : Function.Injective (splitBus n) :=
  Function.LeftInverse.injective (Laws.joinBus_splitBus n)

@[simp] theorem splitBus_inj {n : Nat} {x y : SeqBus n} : splitBus n x = splitBus n y ↔ x = y :=
  (splitBus_injective n).eq_iff

/-- A reading of an `oor` port determines the port. -/
@[simp] theorem map_bool_inj {x y : Option Bool} : x.map Signal.bool = y.map Signal.bool ↔ x = y :=
  Option.map_inj_right fun _ _ h => Signal.bool.inj h

/-- Outputs that read the same on every port are the same. -/
theorem outputs_ext_readOut (h : ∀ q, readOut o q = readOut o' q) : o = o' := by
  cases o
  cases o'
  simpa [readOut] using
    And.intro (h .t) <| And.intro (h .ok) <| And.intro (h .raw) <| And.intro (h .neg) <| And.intro (h .sum) <|
    And.intro (h .prod) <| And.intro (h .encP5) <| And.intro (h .encP9) <| And.intro (h .encP27) <|
    And.intro (h .decS5) <| And.intro (h .decS9) <| And.intro (h .decS27) <| And.intro (h .oor5) <|
    And.intro (h .oor9) <| And.intro (h .oor27) (h .spare)

/-! ## The circuit, one output port at a time -/

/-- What the rules define on an output port for the inputs `p`: nothing where they give `any_k` (R9). What is defined on an
`oor` port of a build without that port is that nothing is read there (R75). -/
def definedAt (strict : Bool) (p : Inputs) : OutPort → Option (Option Signal)
  | .t => some (some (.trit (createPort p.v)))
  | .ok => some (some (.bool (isDigitCode p.d)))
  | .raw => some (some (.int (valuePort Config.intW p.d)))
  | .neg => (negatePort p.a).map fun c => some (.trit c)
  | .sum => (addPort p.a p.b).map fun c => some (.trit c)
  | .prod => (multiplyPort p.a p.b).map fun c => some (.trit c)
  | .encP5 => (packPort 5 8 p.encS5).map fun x => some (.pk8 x)
  | .encP9 => (packPort 9 16 p.encS9).map fun x => some (.pk16 x)
  | .encP27 => (packPort 27 48 p.encS27).map fun x => some (.pk48 x)
  | .decS5 => (unpackPort 5 p.decP5).map fun x => some (.seq (splitBus 5 x))
  | .decS9 => (unpackPort 9 p.decP9).map fun x => some (.seq (splitBus 9 x))
  | .decS27 => (unpackPort 27 p.decP27).map fun x => some (.seq (splitBus 27 x))
  | .oor5 => some ((oorPort strict 5 p.decP5).map .bool)
  | .oor9 => some ((oorPort strict 9 p.decP9).map .bool)
  | .oor27 => some ((oorPort strict 27 p.decP27).map .bool)
  | .spare => some (some (.bool (sparePort p.spareP)))

/-- Each port of the circuit shows its defined value, and where there is none the free value of the same port. -/
theorem readOut_blockOutputs (strict : Bool) (free : Outputs) (p : Inputs) (q : OutPort) :
    readOut (blockOutputs strict free p) q = (definedAt strict p q).getD (readOut free q) := by
  cases q
  case t | ok | raw | oor5 | oor9 | oor27 | spare => rfl
  all_goals
    symm
    exact Option.getD_map _ _ _

/-- The obligation of R96 to R98 says that the rules define the result. -/
theorem definedAt_resultPort_isSome (strict : Bool) (i : Instr) (p : Inputs) :
    (definedAt strict p (resultPort i)).isSome = CallerObligation i p := by
  cases i
  case create | isValid | value | isSpare => rfl
  all_goals
    simp only [definedAt, resultPort, Option.isSome_map, Laws.obligation_negate, Laws.obligation_add,
      Laws.obligation_multiply, Laws.obligation_pack5, Laws.obligation_pack9, Laws.obligation_pack27,
      Laws.obligation_unpack5, Laws.obligation_unpack9, Laws.obligation_unpack27]

/-- Besides its result an evaluation shows `oor` ports only, and what is on those is always defined (R75). -/
theorem eq_resultPort_or_isSome_of_shown (strict : Bool) (p : Inputs) (hq : q ∈ shownPorts i) :
    q = resultPort i ∨ (definedAt strict p q).isSome = true := by
  cases i
  case unpack5 | unpack9 | unpack27 =>
    obtain rfl | rfl : q = _ ∨ q = _ := by simpa [shownPorts] using hq
    · exact .inl rfl
    · exact .inr rfl
  all_goals exact .inl (by simpa [shownPorts, resultPort] using hq)

/-- Where the obligation is met, every shown port is defined. -/
theorem definedAt_isSome_of_shown (strict : Bool) (hp : CallerObligation i p = true) (hq : q ∈ shownPorts i) :
    (definedAt strict p q).isSome = true := by
  obtain rfl | h := eq_resultPort_or_isSome_of_shown strict p hq
  · rw [definedAt_resultPort_isSome, hp]
  · exact h

/-- What is defined on a shown port is a function of the operand ports (R38). -/
theorem definedAt_eq_of_operands_eq (strict : Bool) (h : ∀ x ∈ operandPorts i, readIn p x = readIn p' x)
    (hq : q ∈ shownPorts i) : definedAt strict p q = definedAt strict p' q := by
  cases i
  all_goals
    simp only [operandPorts, List.forall_mem_cons, List.not_mem_nil, false_implies, implies_true, and_true, readIn,
      Signal.int.injEq, Signal.trit.injEq, Signal.seq.injEq, Signal.pk8.injEq, Signal.pk16.injEq, Signal.pk48.injEq,
      splitBus_inj] at h
    simp only [shownPorts, List.mem_cons, List.not_mem_nil, or_false] at hq
  case unpack5 | unpack9 | unpack27 => obtain rfl | rfl := hq <;> simp only [definedAt, h]
  all_goals
    subst hq
    simp only [definedAt, h]

/-- Every output port is shown by some operation. -/
theorem exists_shown (q : OutPort) : ∃ i, q ∈ shownPorts i := by
  cases q
  case t => exact ⟨.create, by decide⟩
  case ok => exact ⟨.isValid, by decide⟩
  case raw => exact ⟨.value, by decide⟩
  case neg => exact ⟨.negate, by decide⟩
  case sum => exact ⟨.add, by decide⟩
  case prod => exact ⟨.multiply, by decide⟩
  case encP5 => exact ⟨.pack5, by decide⟩
  case encP9 => exact ⟨.pack9, by decide⟩
  case encP27 => exact ⟨.pack27, by decide⟩
  case decS5 | oor5 => exact ⟨.unpack5, by decide⟩
  case decS9 | oor9 => exact ⟨.unpack9, by decide⟩
  case decS27 | oor27 => exact ⟨.unpack27, by decide⟩
  case spare => exact ⟨.isSpare, by decide⟩

/-! ## One evaluation in one equation -/

/-- The outputs `old` with the ports that the operation shows taken from `new`. -/
def showOn (old new : Outputs) : Instr → Outputs
  | .create => { old with t := new.t }
  | .isValid => { old with ok := new.ok }
  | .value => { old with raw := new.raw }
  | .negate => { old with neg := new.neg }
  | .add => { old with sum := new.sum }
  | .multiply => { old with prod := new.prod }
  | .pack5 => { old with encP5 := new.encP5 }
  | .pack9 => { old with encP9 := new.encP9 }
  | .pack27 => { old with encP27 := new.encP27 }
  | .unpack5 => { old with decS5 := new.decS5, oor5 := new.oor5 }
  | .unpack9 => { old with decS9 := new.decS9, oor9 := new.oor9 }
  | .unpack27 => { old with decS27 := new.decS27, oor27 := new.oor27 }
  | .isSpare => { old with spare := new.spare }

theorem readOut_showOn (old new : Outputs) (i : Instr) (q : OutPort) :
    readOut (showOn old new i) q = if q ∈ shownPorts i then readOut new q else readOut old q := by
  cases i <;> cases q <;> rfl

/-- The free values that an evaluation in `s` draws from (log 2). A port that is free for no input keeps its reading. -/
def freeOutputs (s : State) : Outputs :=
  { s.out with
    neg := Config.anyBits 2 s.draws
    sum := Config.anyBits 2 s.draws
    prod := Config.anyBits 2 s.draws
    encP5 := Config.anyBits 8 s.draws
    encP9 := Config.anyBits 16 s.draws
    encP27 := Config.anyBits 48 s.draws
    decS5 := Config.anyBits (2 * 5) s.draws
    decS9 := Config.anyBits (2 * 9) s.draws
    decS27 := Config.anyBits (2 * 27) s.draws }

/-- The state with the draw counter as an evaluation leaves it: it moves where the obligation is not met (log 2). -/
def countDraw (i : Instr) (s : State) : State :=
  if CallerObligation i s.inp then s else { s with draws := s.draws + 1 }

/-- The state after an evaluation: the operation's ports show the circuit's outputs, and all else stands. -/
def evaluated (i : Instr) (s : State) : State :=
  withOut (countDraw i s)
    (showOn s.out (blockOutputs Config.build.strictUnpack (freeOutputs s) s.inp) i)

/-- What `resolve` does with a port function's answer that the obligation says is defined or not. -/
theorem resolve_eq {k : Nat} {r : Option (BitVec k)} (h : CallerObligation i s.inp = r.isSome) :
    resolve s r = (r.getD (Config.anyBits k s.draws), countDraw i s) := by
  cases r <;> simp [countDraw, h]

/-- Every evaluation completes, in the state `evaluated`. -/
theorem exec_eq (i : Instr) (s : State) : exec i s = .next (evaluated i s) := by
  cases i
  case create | isValid | value | isSpare => rfl
  case negate => rw [exec, execNegate, resolve_eq (Laws.obligation_negate s.inp)]; rfl
  case add => rw [exec, execAdd, resolve_eq (Laws.obligation_add s.inp)]; rfl
  case multiply => rw [exec, execMultiply, resolve_eq (Laws.obligation_multiply s.inp)]; rfl
  case pack5 => rw [exec, execPack5, resolve_eq (Laws.obligation_pack5 s.inp)]; rfl
  case pack9 => rw [exec, execPack9, resolve_eq (Laws.obligation_pack9 s.inp)]; rfl
  case pack27 => rw [exec, execPack27, resolve_eq (Laws.obligation_pack27 s.inp)]; rfl
  case unpack5 => rw [exec, execUnpack5, resolve_eq (Laws.obligation_unpack5 s.inp)]; rfl
  case unpack9 => rw [exec, execUnpack9, resolve_eq (Laws.obligation_unpack9 s.inp)]; rfl
  case unpack27 => rw [exec, execUnpack27, resolve_eq (Laws.obligation_unpack27 s.inp)]; rfl

@[simp] theorem evaluated_inp (i : Instr) (s : State) : (evaluated i s).inp = s.inp := by
  rw [evaluated, Laws.withOut_inp, countDraw]
  split <;> rfl

/-- On a port it shows an evaluation leaves the defined value, or the draw where there is none. -/
theorem readOut_evaluated_of_shown (s : State) (hq : q ∈ shownPorts i) :
    readOut (evaluated i s).out q =
      (definedAt Config.build.strictUnpack s.inp q).getD (readOut (freeOutputs s) q) := by
  rw [evaluated, Laws.withOut_out, readOut_showOn, if_pos hq, readOut_blockOutputs]

/-- On every other port an evaluation leaves what was read there (R24). -/
theorem readOut_evaluated_of_not_shown (s : State) (hq : q ∉ shownPorts i) :
    readOut (evaluated i s).out q = readOut s.out q := by
  rw [evaluated, Laws.withOut_out, readOut_showOn, if_neg hq]

/-- A step that answers a next state is the evaluation of the selected operation. -/
theorem step_eq_next_iff : step s = .next t ↔ ∃ i, selected s = .ok i ∧ t = evaluated i s := by
  rw [step]
  cases selected s with
  | error e => simp
  | ok i => simp [exec_eq, eq_comm]

/-- Evaluating a list is evaluating its operations in turn, and it always completes. -/
theorem evalList_eq (l : List Instr) (s : State) :
    evalList l s = .next (l.foldl (fun r i => evaluated i r) s) := by
  induction l generalizing s with
  | nil => rfl
  | cons i l ih => rw [evalList, exec_eq]; exact ih _

end Sys2Proof.Proofs.Evaluation
end

section
/-! PROOFS. The statements about what the block holds (R14, R18, R19): nothing but readings of the circuit's rules for the
present inputs. -/

namespace Sys2Proof.Proofs.Readings

open Sys2Proof.Machine Sys2Proof.Proofs.Evaluation

variable {i : Instr} {s : State} {q : OutPort}

/-! ## One settled port -/

/-- Port `q` shows what the circuit gives for the present inputs, or it is free and may show anything. -/
def PortSettled (q : OutPort) (s : State) : Prop :=
  readOut s.out q = (definedAt Config.build.strictUnpack s.inp q).getD (readOut s.out q)

theorem settled_iff : Settled s ↔ ∀ q, PortSettled q s := by
  constructor
  · intro h q
    rw [PortSettled, ← readOut_blockOutputs, ← h]
  · intro h
    refine outputs_ext_readOut fun q => ?_
    rw [readOut_blockOutputs]
    exact h q

/-- An evaluation settles the ports it shows, whatever was read there before. -/
theorem portSettled_evaluated_of_shown (s : State) (hq : q ∈ shownPorts i) : PortSettled q (evaluated i s) := by
  rw [PortSettled, evaluated_inp, readOut_evaluated_of_shown s hq]
  cases definedAt Config.build.strictUnpack s.inp q <;> rfl

/-- An evaluation unsettles no port. -/
theorem portSettled_evaluated (h : PortSettled q s) (i : Instr) : PortSettled q (evaluated i s) := by
  by_cases hq : q ∈ shownPorts i
  · exact portSettled_evaluated_of_shown s hq
  · rw [PortSettled, evaluated_inp, readOut_evaluated_of_not_shown s hq]
    exact h

/-- After a list of evaluations a port is settled if it was so before, or if an operation of the list shows it. -/
theorem portSettled_foldl (l : List Instr) (s : State) (h : PortSettled q s ∨ ∃ i ∈ l, q ∈ shownPorts i) :
    PortSettled q (l.foldl (fun r i => evaluated i r) s) := by
  induction l generalizing s with
  | nil => simpa using h
  | cons j l ih =>
    refine ih _ ?_
    obtain h | ⟨i, hi, hq⟩ := h
    · exact .inl (portSettled_evaluated h j)
    · obtain rfl | hi := List.mem_cons.1 hi
      · exact .inl (portSettled_evaluated_of_shown s hq)
      · exact .inr ⟨i, hi, hq⟩

theorem foldl_evaluated_inp (l : List Instr) (s : State) : (l.foldl (fun r i => evaluated i r) s).inp = s.inp := by
  induction l generalizing s with
  | nil => rfl
  | cons i l ih => rw [List.foldl_cons, ih, evaluated_inp]

/-! ## The statements -/

/-- Settles O43: the block is settled port by port, and the evaluation that a step is unsettles none. -/
theorem settledIsKeptByEveryStep : Obligations.SettledIsKeptByEveryStep := by
  intro s t hs hstep
  obtain ⟨i, -, rfl⟩ := step_eq_next_iff.1 hstep
  exact settled_iff.2 fun q => portSettled_evaluated (settled_iff.1 hs q) i

/-- Settles O37: under the obligation every shown port is defined, and what is defined there is a function of the operand
ports, so neither evaluation shows a draw. -/
theorem operationsAreReferentiallyTransparent : Obligations.OperationsAreReferentiallyTransparent := by
  intro i s s' hp hop
  refine ⟨_, _, exec_eq i s, exec_eq i s', fun q hq => ?_⟩
  obtain ⟨x, hx⟩ := Option.isSome_iff_exists.1 (definedAt_isSome_of_shown Config.build.strictUnpack hp hq)
  have hx' := (definedAt_eq_of_operands_eq Config.build.strictUnpack hop hq).symm.trans hx
  rw [readOut_evaluated_of_shown s hq, readOut_evaluated_of_shown s' hq, hx, hx', Option.getD_some, Option.getD_some]

/-- Settles O44: each port is shown by one of the thirteen operations, which settles it, and the rest of the list keeps it
settled. -/
theorem evaluatingEverythingSettlesTheBlock : Obligations.EvaluatingEverythingSettlesTheBlock := by
  intro s l hl
  refine ⟨_, evalList_eq l s, foldl_evaluated_inp l s, settled_iff.2 fun q => portSettled_foldl l s (.inr ?_)⟩
  obtain ⟨i, hq⟩ := exists_shown q
  exact ⟨i, hl i, hq⟩

/-- Settles O42: the circuit evaluated on inputs of zeros gives the literals of the reset state. -/
theorem resetIsSettled : Obligations.ResetIsSettled := by
  unfold Obligations.ResetIsSettled
  decide

/-- Settles O47, by evaluation of the three tables. -/
theorem powerTablesHoldThePowersOfThree : Obligations.PowerTablesHoldThePowersOfThree :=
  ⟨rfl, rfl, rfl⟩

end Sys2Proof.Proofs.Readings
end

section
/-! PROOFS. The statements about what an evaluation leaves (R24, R26): everything but its own ports, and on inputs that meet
the obligation a state that evaluating again, or in another order, does not change. -/

namespace Sys2Proof.Proofs.Frame

open Sys2Proof.Machine Sys2Proof.Proofs.Evaluation

variable {i : Instr} {s : State} {q : OutPort}

/-! ## The frame of one evaluation -/

@[simp] theorem evaluated_select (i : Instr) (s : State) : (evaluated i s).select = s.select := by
  rw [evaluated, Laws.withOut_select, countDraw]
  split <;> rfl

/-- The draw counter moves where the obligation is not met, and by one (log 2). -/
theorem evaluated_draws (i : Instr) (s : State) :
    (evaluated i s).draws = if CallerObligation i s.inp then s.draws else s.draws + 1 := by
  rw [evaluated, Laws.withOut_draws, countDraw]
  split <;> rfl

/-! ## Evaluations that meet the obligation -/

/-- Where the obligation is met, no free value is seen on the ports an operation shows. -/
theorem showOn_blockOutputs_of_obligation {p : Inputs} (hp : CallerObligation i p = true) (strict : Bool)
    (old free free' : Outputs) :
    showOn old (blockOutputs strict free p) i = showOn old (blockOutputs strict free' p) i := by
  refine outputs_ext_readOut fun q => ?_
  rw [readOut_showOn, readOut_showOn]
  split
  next hq =>
    obtain ⟨x, hx⟩ := Option.isSome_iff_exists.1 (definedAt_isSome_of_shown strict hp hq)
    rw [readOut_blockOutputs, readOut_blockOutputs, hx, Option.getD_some, Option.getD_some]
  next => rfl

/-- An evaluation that meets its obligation takes no draw, and shows the circuit's outputs whatever the free values are. -/
theorem evaluated_of_obligation (hp : CallerObligation i s.inp = true) (free : Outputs) :
    evaluated i s = withOut s (showOn s.out (blockOutputs Config.build.strictUnpack free s.inp) i) := by
  rw [evaluated, countDraw, if_pos hp, showOn_blockOutputs_of_obligation hp]

@[simp] theorem showOn_showOn_self (old new : Outputs) (i : Instr) :
    showOn (showOn old new i) new i = showOn old new i := by
  refine outputs_ext_readOut fun q => ?_
  rw [readOut_showOn, readOut_showOn]
  split <;> rfl

/-- Two operations that show ports of the same circuit may show them in either order. -/
theorem showOn_right_comm (old new : Outputs) (i j : Instr) :
    showOn (showOn old new i) new j = showOn (showOn old new j) new i := by
  refine outputs_ext_readOut fun q => ?_
  simp only [readOut_showOn]
  split
  · split <;> rfl
  · rfl

/-- An evaluation that meets its obligation has nothing to change when it is repeated. -/
theorem evaluated_evaluated_self (hp : CallerObligation i s.inp = true) :
    evaluated i (evaluated i s) = evaluated i s := by
  have ht : CallerObligation i (evaluated i s).inp = true := by rw [evaluated_inp, hp]
  rw [evaluated_of_obligation ht s.out, evaluated_inp, evaluated_of_obligation hp s.out, Laws.withOut_withOut,
    Laws.withOut_out, showOn_showOn_self]

/-- Evaluations that meet their obligations show, one operation after another, ports of one and the same circuit. -/
theorem foldl_evaluated_of_obligations (free : Outputs) (l : List Instr) (s : State)
    (hl : ∀ i ∈ l, CallerObligation i s.inp = true) :
    l.foldl (fun r i => evaluated i r) s =
      withOut s (l.foldl (fun o i => showOn o (blockOutputs Config.build.strictUnpack free s.inp) i) s.out) := by
  induction l generalizing s with
  | nil => rfl
  | cons i l ih =>
    obtain ⟨hi, hl⟩ := List.forall_mem_cons.1 hl
    rw [List.foldl_cons, ih _ (by simpa using hl), evaluated_inp, evaluated_of_obligation hi free,
      Laws.withOut_withOut, Laws.withOut_out, List.foldl_cons]

/-- A safe step has selected an operation whose obligation is met. -/
theorem safeToEvaluate_iff : SafeToEvaluate s = true ↔ ∃ i, selected s = .ok i ∧ CallerObligation i s.inp = true := by
  rw [SafeToEvaluate]
  cases selected s <;> simp

/-! ## The statements -/

/-- Settles O33: the frame of the state `evaluated` field by field, and port by port outside the shown ones. -/
theorem anOperationChangesOnlyItsOwnOutput : Obligations.AnOperationChangesOnlyItsOwnOutput := by
  intro i s
  refine ⟨_, exec_eq i s, evaluated_select i s, evaluated_inp i s, ?_,
    fun q hq => readOut_evaluated_of_not_shown s hq⟩
  rw [evaluated_draws]
  split
  · exact .inl rfl
  · exact .inr rfl

/-- Settles O39: the operation's ports already show the circuit's outputs, which are the same for the same inputs. -/
theorem evaluatingAgainChangesNothing : Obligations.EvaluatingAgainChangesNothing := by
  intro i s hp
  exact ⟨_, exec_eq i s, by rw [exec_eq, evaluated_evaluated_self hp]⟩

/-- Settles O40: the step leaves the select code and the inputs, so the next step evaluates the same operation again. -/
theorem safeStepsReachAFixedPoint : Obligations.SafeStepsReachAFixedPoint := by
  intro s hs
  obtain ⟨i, hi, hp⟩ := safeToEvaluate_iff.1 hs
  have ht : selected (evaluated i s) = .ok i := by rw [selected, evaluated_select]; exact hi
  refine ⟨_, step_eq_next_iff.2 ⟨i, hi, rfl⟩, ?_, step_eq_next_iff.2 ⟨i, ht, ?_⟩⟩
  · rw [evaluated_draws, if_pos hp]
  · exact (evaluated_evaluated_self hp).symm

/-- Settles O41: the evaluations show ports of one circuit, and showing ports of one circuit commutes. -/
theorem orderOfEvaluationsDoesNotMatter : Obligations.OrderOfEvaluationsDoesNotMatter := by
  intro s l l' hperm hl
  have hl' : ∀ i ∈ l', CallerObligation i s.inp = true := fun i hi => hl i (hperm.mem_iff.2 hi)
  refine ⟨_, evalList_eq l s, ?_⟩
  rw [evalList_eq, foldl_evaluated_of_obligations s.out l s hl, foldl_evaluated_of_obligations s.out l' s hl',
    hperm.foldl_eq' (fun i _ j _ o => showOn_right_comm o _ i j)]

end Sys2Proof.Proofs.Frame
end

section
/-! PROOFS. The statement about one line of a netlist (R26, R43): what the caller drives is what stands on the operand ports,
so the result is fixed by the arguments. -/

namespace Sys2Proof.Proofs.Netlist

open Sys2Proof.Machine Sys2Proof.Proofs.Evaluation

variable {p p' : Inputs} {q : InPort} {qs : List InPort} {x : Signal} {xs : List Signal} {s t : State}

/-! ## Driving the input ports -/

/-- A port takes exactly what travels in its format (R38). -/
theorem drive_isSome (p : Inputs) (q : InPort) (x : Signal) :
    (drive p q x).isSome = decide (x.format = q.format) := by
  cases q
  case encS5 | encS9 | encS27 =>
    cases x
    case seq cs =>
      simp only [drive, Signal.format, InPort.format, Format.seq.injEq]
      split <;> simp [*]
    all_goals rfl
  all_goals cases x <;> rfl

/-- What was driven on a port stands there, and every other port is as it was. -/
theorem readIn_drive (h : drive p q x = some p') (r : InPort) : readIn p' r = if r = q then x else readIn p r := by
  unfold drive at h
  split at h
  case h_5 | h_6 | h_7 =>
    split at h
    next hlen =>
      obtain rfl := Option.some.inj h
      cases r <;> simp [readIn, Laws.splitBus_joinBus hlen]
    next => cases h
  case h_12 => cases h
  all_goals
    obtain rfl := Option.some.inj h
    cases r <;> rfl

/-- Whether signals fit the ports does not depend on what stands there before. -/
theorem exists_driveAll (h : driveAll p qs xs = some p') (r : Inputs) : ∃ r', driveAll r qs xs = some r' := by
  fun_induction driveAll p qs xs generalizing r with
  | case1 => exact ⟨r, rfl⟩
  | case2 p q qs x xs p₁ hp₁ ih =>
    have hfits : (drive r q x).isSome = true := by rw [drive_isSome, ← drive_isSome p, hp₁, Option.isSome_some]
    obtain ⟨r₁, hr₁⟩ := Option.isSome_iff_exists.1 hfits
    obtain ⟨r', hr'⟩ := ih h r₁
    exact ⟨r', by rw [driveAll, hr₁]; exact hr'⟩
  | case3 => cases h
  | case4 => cases h

/-- Driving ports leaves every other port as it stands. -/
theorem readIn_driveAll_of_notMem (h : driveAll p qs xs = some p') (hq : q ∉ qs) : readIn p' q = readIn p q := by
  fun_induction driveAll p qs xs with
  | case1 => rw [Option.some.inj h]
  | case2 p r qs x xs p₁ hp₁ ih =>
    obtain ⟨hne, hq⟩ := not_or.1 (List.mem_cons.not.1 hq)
    rw [ih h hq, readIn_drive hp₁, if_neg hne]
  | case3 => cases h
  | case4 => cases h

/-- What was driven on distinct ports stands there. -/
theorem map_readIn_driveAll (h : driveAll p qs xs = some p') (hqs : qs.Nodup) : qs.map (readIn p') = xs := by
  fun_induction driveAll p qs xs with
  | case1 => rfl
  | case2 p q qs x xs p₁ hp₁ ih =>
    obtain ⟨hq, hqs⟩ := List.nodup_cons.1 hqs
    rw [List.map_cons, readIn_driveAll_of_notMem h hq, readIn_drive hp₁, if_pos rfl, ih h hqs]
  | case3 => cases h
  | case4 => cases h

theorem operandPorts_nodup (i : Instr) : (operandPorts i).Nodup := by
  cases i <;> decide

/-! ## One line -/

/-- This build's decoder reads the select code of every operation back (R41). -/
theorem decode_encode (i : Instr) : decode Config.build (encode i) = .ok i := by
  cases i <;> rfl

/-- The state in which the line's operation is evaluated: its operands driven and its select code presented. -/
def lineState (i : Instr) (s : State) (p : Inputs) : State :=
  withSelect (present s p) (encode i)

@[simp] theorem lineState_inp (i : Instr) (s : State) (p : Inputs) : (lineState i s p).inp = p := rfl

/-- The one step of a line evaluates its operation. -/
theorem step_lineState (i : Instr) (s : State) (p : Inputs) :
    step (lineState i s p) = .next (evaluated i (lineState i s p)) :=
  step_eq_next_iff.2 ⟨i, decode_encode i, rfl⟩

/-- Everything that carrying out a line can do (R43): the name is fresh, the arguments fit the operand ports, the operation is
evaluated, and the name then stands for what is read on the result port. -/
theorem evalLine_eq_some_iff {e f : Env Signal} {l : Line} : evalLine s e l = some (t, f) ↔
    lookup l.name e = none ∧ ∃ xs p r, argSignals e l.args = some xs ∧ driveAll s.inp (operandPorts l.op) xs = some p ∧
      readOut (evaluated l.op (lineState l.op s p)).out (resultPort l.op) = some r ∧
      evaluated l.op (lineState l.op s p) = t ∧ (l.name, r) :: e = f := by
  rw [evalLine]
  cases lookup l.name e with
  | some v => simp
  | none =>
    cases argSignals e l.args with
    | none => simp
    | some xs =>
      cases hp : driveAll s.inp (operandPorts l.op) xs with
      | none => simp [hp]
      | some p =>
        have hstep : step (withSelect (present s p) (encode l.op)) = _ := step_lineState l.op s p
        simp [hp, hstep]

theorem resultPort_mem_shownPorts (i : Instr) : resultPort i ∈ shownPorts i := by
  cases i <;> decide

/-- Where the obligation is met, what is read on the result port is a function of what stands on the operand ports. -/
theorem readOut_evaluated_resultPort_eq {i : Instr} (hp : CallerObligation i s.inp = true)
    (hop : (operandPorts i).map (readIn s.inp) = (operandPorts i).map (readIn t.inp)) :
    readOut (evaluated i s).out (resultPort i) = readOut (evaluated i t).out (resultPort i) := by
  obtain ⟨u, v, hu, hv, hout⟩ :=
    Readings.operationsAreReferentiallyTransparent i s t hp (List.map_inj_left.1 hop)
  obtain rfl : evaluated i s = u := by simpa [exec_eq] using hu
  obtain rfl : evaluated i t = v := by simpa [exec_eq] using hv
  exact hout _ (resultPort_mem_shownPorts i)

/-- Settles O46: the arguments can be driven from any state, the operand ports then carry them and nothing else, and the
result is a function of the operand ports. -/
theorem netlistLineResultIsItsArgumentsOnly : Obligations.NetlistLineResultIsItsArgumentsOnly := by
  intro s s' e f l t hline hp
  obtain ⟨hfresh, xs, p, r, hargs, hdrive, hread, rfl, rfl⟩ := evalLine_eq_some_iff.1 hline
  obtain ⟨p', hdrive'⟩ := exists_driveAll hdrive s'.inp
  have hsame : (operandPorts l.op).map (readIn p) = (operandPorts l.op).map (readIn p') := by
    rw [map_readIn_driveAll hdrive (operandPorts_nodup _), map_readIn_driveAll hdrive' (operandPorts_nodup _)]
  rw [evaluated_inp] at hp
  rw [readOut_evaluated_resultPort_eq (t := lineState l.op s' p') hp hsame] at hread
  exact ⟨_, evalLine_eq_some_iff.2 ⟨hfresh, xs, p', r, hargs, hdrive', hread, rfl, rfl⟩⟩

end Sys2Proof.Proofs.Netlist
end

section
/-! PROOFS. The statements about encodings (R31 to R43): digit codes, buses, integer ports, the wide container, select codes,
and the written form, whose well-formed netlists are carried out to their end. -/

namespace Sys2Proof.Proofs.Encoding

open Sys2Proof.Machine Sys2Proof.Proofs.Evaluation

/-! ## Integer ports, buses and the wide container -/

/-- Settles O7: `create` sees its port through the signed integer it spells, and sign extension keeps that integer. -/
theorem integerPortsDoNotDependOnTheirWidth : Obligations.IntegerPortsDoNotDependOnTheirWidth := by
  intro w hw
  refine ⟨fun v => ⟨rfl, fun w' hw' => ?_⟩, fun d => BitVec.toInt_signExtend_of_le hw⟩
  rw [createPort, createPort, BitVec.toInt_signExtend_of_le hw']

/-- A bus has no sequence exactly when some pair, by its place on the wires, is the non-digit code (R33). -/
theorem seqOfBus_eq_none_iff_wirePair {n : Nat} {s : SeqBus n} :
    seqOfBus n s = none ↔ ∃ i, i < n ∧ wirePair n s i = 0b10#2 := by
  rw [Laws.seqOfBus_eq_none_iff, ← Bool.not_eq_true, ← Laws.wireDigits_iff, WireDigits]
  push Not
  rfl

/-- Settles O14: a sequence's bus is the join of its codes, and joining and splitting are inverse. -/
theorem busLayoutIsIndexZeroAtTheTop : Obligations.BusLayoutIsIndexZeroAtTheTop := by
  intro n
  constructor
  · intro ds hl
    exact ⟨fun i d hd => Laws.wirePair_bus hl hd, Laws.seqOfBus_bus hl⟩
  · intro s
    refine ⟨seqOfBus_eq_none_iff_wirePair, fun ds hds => ?_⟩
    obtain ⟨hl, hs⟩ := Laws.seqOfBus_eq_some_iff.1 hds
    exact ⟨hl, hs.symm⟩

/-- A decoder sees the number on its port and nothing else of the port (R68). -/
theorem unpackPort_eq_of_toNat_eq {n k k' : Nat} {p : BitVec k} {p' : BitVec k'} (h : p.toNat = p'.toNat) :
    unpackPort n p = unpackPort n p' := by
  rw [unpackPort, unpackPort, h]

/-- A decoder defines nothing from `3^n` on (R73). -/
theorem unpackPort_eq_none {n k : Nat} {p : BitVec k} (h : 3 ^ n ≤ p.toNat) : unpackPort n p = none := by
  rw [unpackPort, Laws.unpack?_eq_none_iff.2 h]

/-- Settles O30: zero extension keeps the number, which is all that the decoder sees, and a bit above bit 47 makes the number
at least `2^48`, beyond `3^27`. -/
theorem wideContainerIsZeroExtended : Obligations.WideContainerIsZeroExtended := by
  intro w hw
  constructor
  · intro p
    have hnat : (widen48 w p).toNat = p.toNat := BitVec.toNat_setWidth_of_le hw
    refine ⟨hnat, fun j hj => ?_, unpackPort_eq_of_toNat_eq hnat⟩
    rw [widen48, BitVec.getLsbD_setWidth, BitVec.getLsbD_of_ge p j hj, Bool.and_false]
  · rintro c ⟨j, hj, hbit⟩
    have hlarge : 2 ^ 48 ≤ c.toNat := (Nat.pow_le_pow_right (by decide) hj).trans (Nat.ge_two_pow_of_testBit hbit)
    have hrange : 3 ^ 27 ≤ 2 ^ 48 := by decide
    exact ⟨hlarge, unpackPort_eq_none (hrange.trans hlarge)⟩

/-! ## The circuit's ports -/

/-- Settles O38: what the rules define on a shown port is a function of the operand ports, and the free value is given. -/
theorem eachOutputDependsOnItsOperandsOnly : Obligations.EachOutputDependsOnItsOperandsOnly := by
  intro i p p' strict free hop q hq
  rw [readOut_blockOutputs, readOut_blockOutputs, definedAt_eq_of_operands_eq strict hop hq]

/-! ## Well-formed netlists -/

section Netlists

variable {e : Env Signal}

/-- The formats of what the names stand for, against which a netlist is checked (R43). -/
def formats (e : Env Signal) : Env Format :=
  e.map fun p => (p.1, p.2.format)

@[simp] theorem formats_cons (x : Nat) (v : Signal) (e : Env Signal) :
    formats ((x, v) :: e) = (x, v.format) :: formats e := rfl

@[simp] theorem lookup_formats (x : Nat) (e : Env Signal) : lookup x (formats e) = (lookup x e).map Signal.format := by
  induction e with
  | nil => rfl
  | cons p e ih =>
    obtain ⟨y, v⟩ := p
    rw [formats_cons, lookup, lookup, ih]
    split <;> rfl

theorem format_eq_trit_iff {v : Signal} : v.format = .trit ↔ ∃ c, v = .trit c := by
  cases v <;> simp [Signal.format]

theorem format_eq_seq_iff {v : Signal} {n : Nat} : v.format = .seq n ↔ ∃ cs, v = .seq cs ∧ cs.length = n := by
  cases v <;> simp [Signal.format]

/-- A bracketed list that fits has a pair for each element. -/
theorem exists_elemPairs {es : List Elem} (h : elemsFit (formats e) es = true) :
    ∃ cs, elemPairs e es = some cs ∧ cs.length = es.length := by
  induction es with
  | nil => exact ⟨[], rfl, rfl⟩
  | cons el es ih =>
    cases el with
    | digit d =>
      obtain ⟨cs, hcs, hlen⟩ := ih h
      exact ⟨code d :: cs, by simp [elemPairs, hcs], by simp [hlen]⟩
    | name x =>
      rw [elemsFit, Bool.and_eq_true, decide_eq_true_eq, lookup_formats, Option.map_eq_some_iff] at h
      obtain ⟨⟨v, hv, hfmt⟩, hes⟩ := h
      obtain ⟨c, rfl⟩ := format_eq_trit_iff.1 hfmt
      obtain ⟨cs, hcs, hlen⟩ := ih hes
      exact ⟨c :: cs, by simp [elemPairs, hv, hcs], by simp [hlen]⟩

/-- A name whose format is a sequence's stands for that many pairs. -/
theorem exists_seq_of_lookup_formats {x n : Nat} (h : lookup x (formats e) = some (.seq n)) :
    ∃ cs, lookup x e = some (.seq cs) ∧ cs.length = n := by
  rw [lookup_formats, Option.map_eq_some_iff] at h
  obtain ⟨v, hv, hfmt⟩ := h
  obtain ⟨cs, rfl, hlen⟩ := format_eq_seq_iff.1 hfmt
  exact ⟨cs, hv, hlen⟩

/-- An argument with a static format stands for a signal of that format. -/
theorem exists_argSignal {g : Arg} {fmt : Format} (h : argFormat (formats e) g = some fmt) :
    ∃ x, argSignal e g = some x ∧ x.format = fmt := by
  cases g with
  | name x =>
    rw [argFormat, lookup_formats, Option.map_eq_some_iff] at h
    exact h
  | lit v => exact ⟨v, rfl, Option.some.inj h⟩
  | list es =>
    rw [argFormat] at h
    split at h
    next hfit =>
      obtain ⟨cs, hcs, hlen⟩ := exists_elemPairs hfit
      obtain rfl := Option.some.inj h
      exact ⟨.seq cs, by simp [argSignal, hcs], by rw [Signal.format, hlen]⟩
    next => cases h
  | digitAt x i =>
    rw [argFormat] at h
    split at h
    next n hx =>
      obtain ⟨cs, hcs, rfl⟩ := exists_seq_of_lookup_formats hx
      obtain ⟨hi, hfmt⟩ : i < cs.length ∧ Format.trit = fmt := by simpa using h
      exact ⟨.trit cs[i], by simp [argSignal, hcs, hi], hfmt⟩
    next => cases h
  | slice x i j =>
    rw [argFormat] at h
    split at h
    next n hx =>
      obtain ⟨cs, hcs, rfl⟩ := exists_seq_of_lookup_formats hx
      obtain ⟨hij, hfmt⟩ : (i ≤ j ∧ j < cs.length) ∧ Format.seq (j + 1 - i) = fmt := by simpa using h
      have hlen : ((cs.drop i).take (j + 1 - i)).length = j + 1 - i := by
        rw [List.length_take, List.length_drop]
        omega
      exact ⟨.seq ((cs.drop i).take (j + 1 - i)), by simp [argSignal, hcs, hij], by rw [Signal.format, hlen, hfmt]⟩
    next => cases h

/-- Arguments with the static formats `fmts` stand for signals of these formats. -/
theorem exists_argSignals {gs : List Arg} {fmts : List Format} (h : gs.map (argFormat (formats e)) = fmts.map some) :
    ∃ xs, argSignals e gs = some xs ∧ xs.map Signal.format = fmts := by
  induction gs generalizing fmts with
  | nil => exact ⟨[], rfl, by simpa using h⟩
  | cons g gs ih =>
    cases fmts with
    | nil => cases h
    | cons fmt fmts =>
      obtain ⟨hg, hgs⟩ := List.cons.inj h
      obtain ⟨x, hx, hxf⟩ := exists_argSignal hg
      obtain ⟨xs, hxs, hxsf⟩ := ih hgs
      exact ⟨x :: xs, by simp [argSignals, hx, hxs], by rw [List.map_cons, hxf, hxsf]⟩

/-- Signals in the formats of the ports can be driven on them. -/
theorem exists_driveAll_of_formats {qs : List InPort} {xs : List Signal}
    (h : xs.map Signal.format = qs.map InPort.format) (p : Inputs) : ∃ p', driveAll p qs xs = some p' := by
  induction qs generalizing xs p with
  | nil => exact ⟨p, by rw [List.map_eq_nil_iff.1 h, driveAll]⟩
  | cons q qs ih =>
    obtain ⟨x, xs, rfl, hx, hxs⟩ := List.map_eq_cons_iff.1 h
    have hfits : (drive p q x).isSome = true := by simp [Netlist.drive_isSome, hx]
    obtain ⟨p₁, hp₁⟩ := Option.isSome_iff_exists.1 hfits
    obtain ⟨p', hp'⟩ := ih hxs p₁
    exact ⟨p', by rw [driveAll, hp₁]; exact hp'⟩

/-- A result port is in every build, and what is read there is in the port's format (R38). -/
theorem exists_readOut_resultPort (o : Outputs) (i : Instr) :
    ∃ r, readOut o (resultPort i) = some r ∧ r.format = (resultPort i).format := by
  cases i
  case unpack5 | unpack9 | unpack27 =>
    exact ⟨_, rfl, congrArg Format.seq (Laws.splitBus_length _ _)⟩
  all_goals exact ⟨_, rfl, rfl⟩

/-- Everything that the static check of a line says (R43). -/
theorem lineFits_iff {l : Line} : lineFits (formats e) l = true ↔
    lookup l.name e = none ∧
      l.args.map (argFormat (formats e)) = ((operandPorts l.op).map InPort.format).map some := by
  rw [lineFits, Bool.and_eq_true, decide_eq_true_eq, Option.isNone_iff_eq_none, lookup_formats, Option.map_eq_none_iff,
    List.map_map]
  rfl

/-- A well-formed line is carried out from any state, and its name then stands for a signal of the result's format. -/
theorem exists_evalLine {l : Line} (h : lineFits (formats e) l = true) (s : State) :
    ∃ t r, evalLine s e l = some (t, (l.name, r) :: e) ∧ r.format = (resultPort l.op).format := by
  obtain ⟨hfresh, hargs⟩ := lineFits_iff.1 h
  obtain ⟨xs, hxs, hfmts⟩ := exists_argSignals hargs
  obtain ⟨p, hp⟩ := exists_driveAll_of_formats hfmts s.inp
  obtain ⟨r, hr, hfmt⟩ := exists_readOut_resultPort (evaluated l.op (Netlist.lineState l.op s p)).out l.op
  exact ⟨_, r, Netlist.evalLine_eq_some_iff.2 ⟨hfresh, xs, p, r, hxs, hp, hr, rfl, rfl⟩, hfmt⟩

end Netlists

/-- Settles O45, by induction on the lines: each is carried out, and what it adds has the format that the static check of the
lines after it takes for granted. -/
theorem wellFormedNetlistsAreCarriedOut : Obligations.WellFormedNetlistsAreCarriedOut := by
  intro ls
  induction ls with
  | nil =>
    intro s e _
    exact ⟨s, [], rfl, rfl⟩
  | cons l ls ih =>
    intro s e h
    obtain ⟨hl, hls⟩ := Bool.and_eq_true_iff.1 h
    obtain ⟨t₁, r, hline, hfmt⟩ := exists_evalLine hl s
    rw [← hfmt] at hls
    obtain ⟨t, g, hrun, hg⟩ := ih t₁ ((l.name, r) :: e) hls
    refine ⟨t, g ++ [(l.name, r)], ?_, ?_⟩
    · rw [evalNetlist, hline, List.append_assoc]
      exact hrun
    · simp [hg, hfmt]

/-! ## Select codes -/

/-- Codes 13 to 15 are reserved in every build (R41). -/
theorem decode_reserved {c : SelectCode} (hc : 13 ≤ c.toNat) (b : Build) : decode b c = .error (.reserved c) := by
  unfold decode
  split
  case h_14 => rfl
  all_goals omega

/-- In a build that has the operation, its code decodes to it (R41). -/
theorem decode_encode_of_wellFormed {b : Build} {i : Instr} (h : i.wellFormed b = true) :
    decode b (encode i) = .ok i := by
  cases i
  case isValid => exact if_pos h
  all_goals rfl

/-- A code that decodes is the code of what it decodes to, an operation of the build (R41, R48). -/
theorem encode_of_decode {b : Build} {c : SelectCode} {i : Instr} (h : decode b c = .ok i) :
    encode i = c ∧ i.wellFormed b = true := by
  unfold decode at h
  split at h
  case h_2 hc =>
    split at h
    next hb =>
      cases h
      exact ⟨(BitVec.eq_of_toNat_eq hc).symm, hb⟩
    next => cases h
  case h_14 => cases h
  all_goals
    rename_i hc
    cases h
    exact ⟨(BitVec.eq_of_toNat_eq hc).symm, rfl⟩

theorem decodeTableWord_eq_some_iff {nbits w : Nat} {i : Instr} :
    decodeTableWord nbits w = some i ↔ decode Config.build (selectOfTableWord w) = .ok i := by
  rw [decodeTableWord]
  cases decode Config.build (selectOfTableWord w) <;> simp

/-- A step under a code that decodes is the evaluation of its operation (R99). -/
theorem step_of_decode {s : State} {i : Instr} (h : decode Config.build s.select = .ok i) : step s = exec i s := by
  rw [step, selected, h]

/-- Settles O1: the table by evaluation, and codes 13 to 15 are reserved in every build. -/
theorem selectCodesNameTheThirteenOperations : Obligations.SelectCodesNameTheThirteenOperations := by
  refine ⟨rfl, rfl, fun s hs => ?_⟩
  rw [step, selected, decode_reserved hs]
  rfl

/-- Settles O2: the decoder and the encoder are inverse on the operations of each build. -/
theorem decodeAndEncodeAgreeInEveryBuild : Obligations.DecodeAndEncodeAgreeInEveryBuild :=
  ⟨fun _ _ => decode_encode_of_wellFormed, fun _ _ _ => encode_of_decode⟩

/-- Settles O3: a table word that decodes is the code of its operation, so presenting it selects that operation. -/
theorem stepEvaluatesTheSelectedOperation : Obligations.StepEvaluatesTheSelectedOperation := by
  refine ⟨fun _ _ => step_of_decode, fun s nbits w i hw => ?_⟩
  have hdecode := decodeTableWord_eq_some_iff.1 hw
  have hselect : selectOfTableWord w = encode i := (encode_of_decode hdecode).1.symm
  rw [step_of_decode hdecode, State.withFetchWord, hselect]
  rfl

/-! ## Digit codes -/

/-- Settles O5: the codes by evaluation, and reading a code back is the inverse of writing it. -/
theorem digitCodesAreTwosComplement : Obligations.DigitCodesAreTwosComplement := by
  refine ⟨rfl, rfl, rfl, fun d => ⟨Laws.code_toInt d, Laws.trit?_code d, ?_, Laws.code_add_one_toNat d⟩,
    Laws.trit?_eq_none_iff⟩
  exact (Laws.isDigitCode_iff _).1 (Laws.isDigitCode_code d)

end Sys2Proof.Proofs.Encoding
end

section
/-! PROOFS. The statements about the digit type (R46 to R49): `create`, `isValid` and `value`, and the closure of the digits
under every operation of the block. -/

namespace Sys2Proof.Proofs.Digit

open Sys2Proof.Machine Sys2Proof.Proofs.Evaluation

/-! ## `create` and `value` -/

theorem create_of_outside {v : Int} (hminus : v ≠ -1) (hzero : v ≠ 0) (hplus : v ≠ 1) : create v = .zero := by
  rw [create, if_neg hminus, if_neg hzero, if_neg hplus]

theorem value_trichotomy (d : Trit) : value d = -1 ∨ value d = 0 ∨ value d = 1 := by
  cases d
  case minus => exact .inl rfl
  case zero => exact .inr (.inl rfl)
  case plus => exact .inr (.inr rfl)

@[simp] theorem create_value (d : Trit) : create (value d) = d := by
  cases d <;> rfl

theorem value_create (v : Int) : value (create v) = if v = -1 ∨ v = 0 ∨ v = 1 then v else 0 := by
  split
  next hdigit => obtain rfl | rfl | rfl := hdigit <;> rfl
  next houtside =>
    obtain ⟨hminus, hzero, hplus⟩ : v ≠ -1 ∧ v ≠ 0 ∧ v ≠ 1 := by simpa only [not_or] using houtside
    rw [create_of_outside hminus hzero hplus, value]

/-- `create` on wires, case by case (R47). -/
theorem createPort_eq {w : Nat} (v : BitVec w) : createPort v =
    if v.toInt = -1 then 0b11#2 else if v.toInt = 0 then 0b00#2 else if v.toInt = 1 then 0b01#2 else 0b00#2 := by
  rw [createPort, create, apply_ite code, apply_ite code, apply_ite code]
  rfl

/-- The raw accessor is exact at this build's width: it restricts the statement about every width (R34, R49). -/
theorem valuePort_toInt (d : TritCode) : (valuePort Config.intW d).toInt = d.toInt :=
  (Encoding.integerPortsDoNotDependOnTheirWidth Config.intW (by decide)).2 d

/-- Settles O6: `create` on wires is the code of `create` on the integer that the wires spell. -/
theorem createNormalisesToADigit : Obligations.CreateNormalisesToADigit := by
  refine ⟨rfl, fun s => ?_, value_create⟩
  rw [← createPort_eq]
  rfl

/-- Settles O9: the accessor keeps the signed integer of the wires, and on the codes of digits `create` is its inverse. -/
theorem valueIsTheExactRawInteger : Obligations.ValueIsTheExactRawInteger := by
  refine ⟨rfl, fun _ => rfl, valuePort_toInt, ?nonDigit, ?createOfValue, ?valueOfCreate⟩
  case nonDigit =>
    rw [valuePort_toInt]
    rfl
  case createOfValue =>
    intro c hc
    obtain ⟨d, rfl⟩ := (Laws.isDigitCode_iff_trit c).1 ((Laws.isDigitCode_iff c).2 hc)
    rw [createPort, valuePort_toInt, Laws.code_toInt, create_value]
  case valueOfCreate =>
    intro v
    rw [valuePort_toInt, createPort, Laws.code_toInt, value_create]

/-! ## `isValid` -/

theorem isDigitCode_eq_decide (c : TritCode) : isDigitCode c = decide (c ≠ 0b10#2) := by
  rw [Bool.eq_iff_iff, Laws.isDigitCode_iff, decide_eq_true_iff]

theorem isValidRaw_iff (raw : Int) : isValidRaw raw = true ↔ raw = -1 ∨ raw = 0 ∨ raw = 1 := by
  simp only [isValidRaw, Bool.or_eq_true, decide_eq_true_iff, or_assoc]

/-- The test on wires is the test on the integer they spell, and the two-gate form of R48, on each of the four patterns. -/
theorem isDigitCode_readings (c : TritCode) :
    isDigitCode c = isValidRaw c.toInt ∧ isDigitCode c = !(c.getLsbD 1 && !c.getLsbD 0) := by
  revert c
  decide

/-- Settles O8: the evaluation shows the test on wires, whose readings agree on the four patterns. -/
theorem isValidTestsForTheNonDigitCode : Obligations.IsValidTestsForTheNonDigitCode := by
  refine ⟨rfl, fun s => ?_, isValidRaw_iff, isDigitCode_readings⟩
  rw [← isDigitCode_eq_decide]
  rfl

/-! ## Digit outputs -/

theorem code_ne_nonDigit (d : Trit) : code d ≠ 0b10#2 :=
  (Laws.isDigitCode_iff _).1 (Laws.isDigitCode_code d)

/-- What one of the three tables defines is the code of a digit (R52 to R54). -/
theorem exists_code_of_tablePort {a b c : TritCode}
    (h : negatePort a = some c ∨ addPort a b = some c ∨ multiplyPort a b = some c) : ∃ d, code d = c := by
  unfold negatePort addPort multiplyPort at h
  obtain h | h | h := h
  all_goals
    split at h
    · exact ⟨_, Option.some.inj h⟩
    · cases h

/-- What a decoder defines is the bus of a sequence of digits. -/
theorem isDigitBus_of_unpackPort {n k : Nat} {p : BitVec k} {x : SeqBus n} (h : unpackPort n p = some x) :
    isDigitBus n x = true := by
  unfold unpackPort at h
  split at h
  next ds hds => exact Laws.isDigitBus_iff.2 ⟨ds, Laws.unpack?_length hds, (Option.some.inj h).symm⟩
  next => cases h

theorem digitsOnly_trit {c : TritCode} (h : ∃ d, code d = c) : DigitsOnly (some (.trit c)) := by
  obtain ⟨d, rfl⟩ := h
  exact code_ne_nonDigit d

theorem digitsOnly_seq {n : Nat} {x : SeqBus n} (h : isDigitBus n x = true) :
    DigitsOnly (some (.seq (splitBus n x))) :=
  fun c hc => (Laws.isDigitCode_iff c).1 (List.all_eq_true.1 h c hc)

/-- No TRIT and no SEQ is read on an `oor` port (R75). -/
theorem digitsOnly_bool (x : Option Bool) : DigitsOnly (x.map .bool) := by
  cases x <;> exact trivial

/-- What the rules define on an output port carries digits only (R46). -/
theorem digitsOnly_of_definedAt {strict : Bool} {p : Inputs} {q : OutPort} {r : Option Signal}
    (h : definedAt strict p q = some r) : DigitsOnly r := by
  cases q
  case t =>
    obtain rfl := Option.some.inj h
    exact digitsOnly_trit ⟨_, rfl⟩
  case neg =>
    obtain ⟨c, hc, rfl⟩ := Option.map_eq_some_iff.1 h
    exact digitsOnly_trit (exists_code_of_tablePort (b := p.b) (.inl hc))
  case sum =>
    obtain ⟨c, hc, rfl⟩ := Option.map_eq_some_iff.1 h
    exact digitsOnly_trit (exists_code_of_tablePort (.inr (.inl hc)))
  case prod =>
    obtain ⟨c, hc, rfl⟩ := Option.map_eq_some_iff.1 h
    exact digitsOnly_trit (exists_code_of_tablePort (.inr (.inr hc)))
  case decS5 | decS9 | decS27 =>
    obtain ⟨x, hx, rfl⟩ := Option.map_eq_some_iff.1 h
    exact digitsOnly_seq (isDigitBus_of_unpackPort hx)
  case oor5 | oor9 | oor27 =>
    obtain rfl := Option.some.inj h
    exact digitsOnly_bool _
  case encP5 | encP9 | encP27 =>
    obtain ⟨x, -, rfl⟩ := Option.map_eq_some_iff.1 h
    trivial
  case ok | raw | spare =>
    obtain rfl := Option.some.inj h
    trivial

/-- Settles O36: where the obligation is met, every shown port shows what the rules define there, and that is digits only. -/
theorem digitOutputsAreDigits : Obligations.DigitOutputsAreDigits := by
  refine ⟨value_trichotomy, fun _ => create_of_outside, fun i s hp => ⟨_, exec_eq i s, fun q hq => ?_⟩⟩
  obtain ⟨r, hr⟩ := Option.isSome_iff_exists.1 (definedAt_isSome_of_shown Config.build.strictUnpack hp hq)
  rw [readOut_evaluated_of_shown s hq, hr, Option.getD_some]
  exact digitsOnly_of_definedAt hr

end Sys2Proof.Proofs.Digit
end

section
/-! PROOFS. The statements about the arithmetic tables (R51 to R57): on digits `negate`, `add` and `multiply` are the
negative, the clamped sum and the product of integers, and on the non-digit code their outputs are free. -/

namespace Sys2Proof.Proofs.Arithmetic

open Sys2Proof.Machine Sys2Proof.Proofs.Evaluation

variable {a b : TritCode} {p : Inputs} {s : State} {i : Instr} {strict : Bool} {free : Outputs}

/-! ## The tables are the integer operations

A digit is its integer, so each law of a table is the law of integers that stands behind it. -/

theorem value_injective : Function.Injective value :=
  Function.LeftInverse.injective Digit.create_value

theorem value_NEG (x : Trit) : value (NEG x) = -value x := by
  cases x <;> rfl

theorem value_ADD (x y : Trit) : value (ADD x y) = clamp (value x + value y) := by
  cases x <;> cases y <;> rfl

theorem value_MUL (x y : Trit) : value (MUL x y) = value x * value y := by
  cases x <;> cases y <;> rfl

theorem clamp_neg (n : Int) : clamp (-n) = -clamp n := by
  unfold clamp
  omega

/-- Scaling by a digit passes through the clamp: it is a change of sign or gives 0. -/
theorem clamp_value_mul (x : Trit) (n : Int) : clamp (value x * n) = value x * clamp n := by
  cases x
  case minus => simpa only [value, neg_one_mul] using clamp_neg n
  case zero => rw [value, zero_mul, zero_mul]; rfl
  case plus => rw [value, one_mul, one_mul]

theorem NEG_NEG (x : Trit) : NEG (NEG x) = x :=
  value_injective (by rw [value_NEG, value_NEG, neg_neg])

theorem ADD_comm (x y : Trit) : ADD x y = ADD y x :=
  value_injective (by rw [value_ADD, value_ADD, add_comm])

theorem ADD_NEG_self (x : Trit) : ADD x (NEG x) = .zero :=
  value_injective (by rw [value_ADD, value_NEG, add_neg_cancel]; rfl)

theorem NEG_ADD (x y : Trit) : NEG (ADD x y) = ADD (NEG x) (NEG y) :=
  value_injective (by rw [value_NEG, value_ADD, value_ADD, value_NEG, value_NEG, ← neg_add, clamp_neg])

/-- The sum saturates in the two cells with equal operands other than 0 (R53). -/
theorem ADD_saturates_iff (x y : Trit) : value (ADD x y) ≠ value x + value y ↔ x = y ∧ x ≠ .zero := by
  cases x <;> cases y <;> decide

/-- The four triples on which the saturating sum depends on the grouping (R53). -/
theorem ADD_assoc_fails_iff (x y z : Trit) : ADD (ADD x y) z ≠ ADD x (ADD y z) ↔
    (x, y, z) ∈ [(Trit.minus, Trit.minus, Trit.plus), (.minus, .plus, .plus), (.plus, .minus, .minus),
      (.plus, .plus, .minus)] := by
  cases x <;> cases y <;> cases z <;> decide

theorem MUL_comm (x y : Trit) : MUL x y = MUL y x :=
  value_injective (by rw [value_MUL, value_MUL, mul_comm])

theorem MUL_assoc (x y z : Trit) : MUL (MUL x y) z = MUL x (MUL y z) :=
  value_injective (by simp only [value_MUL, mul_assoc])

theorem plus_MUL (x : Trit) : MUL .plus x = x :=
  value_injective (by rw [value_MUL, value, one_mul])

theorem minus_MUL (x : Trit) : MUL .minus x = NEG x :=
  value_injective (by rw [value_MUL, value_NEG, value, neg_one_mul])

theorem MUL_self (x : Trit) : MUL x x = if x = .zero then .zero else .plus := by
  cases x <;> rfl

/-- The product distributes over the sum, also where the sum saturates (R54). -/
theorem MUL_ADD (x y z : Trit) : MUL x (ADD y z) = ADD (MUL x y) (MUL x z) :=
  value_injective (by rw [value_MUL, value_ADD, value_ADD, value_MUL, value_MUL, ← mul_add, clamp_value_mul])

/-! ## The port functions on digit codes and on the non-digit code -/

theorem exists_eq_code (ha : a ≠ 0b10#2) : ∃ x, a = code x :=
  (Laws.isDigitCode_iff_trit a).1 ((Laws.isDigitCode_iff a).2 ha)

/-- The code of a digit is its integer in two's complement (R31). -/
theorem code_eq_ofInt (x : Trit) : code x = BitVec.ofInt 2 (value x) := by
  rw [← Laws.code_toInt, BitVec.ofInt_toInt]

theorem negatePort_of_digit (ha : a ≠ 0b10#2) : negatePort a = some (BitVec.ofInt 2 (-a.toInt)) := by
  obtain ⟨x, rfl⟩ := exists_eq_code ha
  rw [Laws.negatePort_code, code_eq_ofInt, value_NEG, Laws.code_toInt]

theorem addPort_of_digits (ha : a ≠ 0b10#2) (hb : b ≠ 0b10#2) :
    addPort a b = some (BitVec.ofInt 2 (clamp (a.toInt + b.toInt))) := by
  obtain ⟨x, rfl⟩ := exists_eq_code ha
  obtain ⟨y, rfl⟩ := exists_eq_code hb
  rw [Laws.addPort_code, code_eq_ofInt, value_ADD, Laws.code_toInt, Laws.code_toInt]

theorem multiplyPort_of_digits (ha : a ≠ 0b10#2) (hb : b ≠ 0b10#2) :
    multiplyPort a b = some (BitVec.ofInt 2 (a.toInt * b.toInt)) := by
  obtain ⟨x, rfl⟩ := exists_eq_code ha
  obtain ⟨y, rfl⟩ := exists_eq_code hb
  rw [Laws.multiplyPort_code, code_eq_ofInt, value_MUL, Laws.code_toInt, Laws.code_toInt]

/-- `negate` in gates: the low wire stands, the high wire is the exclusive or of both (R52). -/
theorem negatePort_wires (ha : a ≠ 0b10#2) :
    negatePort a = some (BitVec.ofBool (a.getLsbD 1 ^^ a.getLsbD 0) ++ BitVec.ofBool (a.getLsbD 0)) := by
  obtain ⟨x, rfl⟩ := exists_eq_code ha
  cases x <;> rfl

theorem negatePort_eq_none_iff : negatePort a = none ↔ a = 0b10#2 := by
  rw [← Option.not_isSome_iff_eq_none, Laws.negatePort_isSome, Laws.isDigitCode_iff, not_not]

theorem addPort_eq_none_iff : addPort a b = none ↔ a = 0b10#2 ∨ b = 0b10#2 := by
  rw [← Option.not_isSome_iff_eq_none, Laws.addPort_isSome, Bool.and_eq_true, Laws.isDigitCode_iff,
    Laws.isDigitCode_iff, not_and_or, not_not, not_not]

theorem multiplyPort_eq_none_iff : multiplyPort a b = none ↔ a = 0b10#2 ∨ b = 0b10#2 := by
  rw [← Option.not_isSome_iff_eq_none, Laws.multiplyPort_isSome, ← Laws.addPort_isSome,
    Option.not_isSome_iff_eq_none, addPort_eq_none_iff]

/-! ## The circuit's table ports -/

theorem blockOutputs_neg_of_digit (ha : p.a ≠ 0b10#2) :
    (blockOutputs strict free p).neg = BitVec.ofInt 2 (-p.a.toInt) := by
  rw [blockOutputs, negatePort_of_digit ha, Option.getD_some]

theorem blockOutputs_sum_of_digits (ha : p.a ≠ 0b10#2) (hb : p.b ≠ 0b10#2) :
    (blockOutputs strict free p).sum = BitVec.ofInt 2 (clamp (p.a.toInt + p.b.toInt)) := by
  rw [blockOutputs, addPort_of_digits ha hb, Option.getD_some]

theorem blockOutputs_prod_of_digits (ha : p.a ≠ 0b10#2) (hb : p.b ≠ 0b10#2) :
    (blockOutputs strict free p).prod = BitVec.ofInt 2 (p.a.toInt * p.b.toInt) := by
  rw [blockOutputs, multiplyPort_of_digits ha hb, Option.getD_some]

theorem blockOutputs_neg_of_nonDigit (ha : p.a = 0b10#2) : (blockOutputs strict free p).neg = free.neg := by
  rw [blockOutputs, negatePort_eq_none_iff.2 ha, Option.getD_none]

theorem blockOutputs_sum_of_nonDigit (h : p.a = 0b10#2 ∨ p.b = 0b10#2) :
    (blockOutputs strict free p).sum = free.sum := by
  rw [blockOutputs, addPort_eq_none_iff.2 h, Option.getD_none]

theorem blockOutputs_prod_of_nonDigit (h : p.a = 0b10#2 ∨ p.b = 0b10#2) :
    (blockOutputs strict free p).prod = free.prod := by
  rw [blockOutputs, multiplyPort_eq_none_iff.2 h, Option.getD_none]

/-! ## The machine: the circuit's defined value, or a draw -/

/-- An evaluation whose obligation is met takes no draw and shows the circuit's output. -/
theorem exec_of_obligation (hp : CallerObligation i s.inp = true) : exec i s =
    .next (withOut s (showOn s.out (blockOutputs Config.build.strictUnpack s.out s.inp) i)) := by
  rw [exec_eq, Frame.evaluated_of_obligation hp]

/-- An evaluation whose obligation is broken moves the draw counter and shows the draw (log 2). -/
theorem exec_of_not_obligation (hp : CallerObligation i s.inp = false) : exec i s =
    .next (withOut { s with draws := s.draws + 1 }
      (showOn s.out (blockOutputs Config.build.strictUnpack (freeOutputs s) s.inp) i)) := by
  rw [exec_eq, evaluated, countDraw, hp, if_neg Bool.false_ne_true]

theorem exec_negate_of_digit (ha : s.inp.a ≠ 0b10#2) :
    exec .negate s = .next { s with out := { s.out with neg := BitVec.ofInt 2 (-s.inp.a.toInt) } } := by
  have hp : CallerObligation .negate s.inp = true := by
    rw [Laws.obligation_negate, negatePort_of_digit ha, Option.isSome_some]
  rw [exec_of_obligation hp, showOn, blockOutputs_neg_of_digit ha, withOut]

theorem exec_add_of_digits (ha : s.inp.a ≠ 0b10#2) (hb : s.inp.b ≠ 0b10#2) :
    exec .add s =
      .next { s with out := { s.out with sum := BitVec.ofInt 2 (clamp (s.inp.a.toInt + s.inp.b.toInt)) } } := by
  have hp : CallerObligation .add s.inp = true := by
    rw [Laws.obligation_add, addPort_of_digits ha hb, Option.isSome_some]
  rw [exec_of_obligation hp, showOn, blockOutputs_sum_of_digits ha hb, withOut]

theorem exec_multiply_of_digits (ha : s.inp.a ≠ 0b10#2) (hb : s.inp.b ≠ 0b10#2) :
    exec .multiply s =
      .next { s with out := { s.out with prod := BitVec.ofInt 2 (s.inp.a.toInt * s.inp.b.toInt) } } := by
  have hp : CallerObligation .multiply s.inp = true := by
    rw [Laws.obligation_multiply, multiplyPort_of_digits ha hb, Option.isSome_some]
  rw [exec_of_obligation hp, showOn, blockOutputs_prod_of_digits ha hb, withOut]

theorem exec_negate_of_nonDigit (ha : s.inp.a = 0b10#2) :
    exec .negate s =
      .next { s with draws := s.draws + 1, out := { s.out with neg := Config.anyBits 2 s.draws } } := by
  have hp : CallerObligation .negate s.inp = false := by
    rw [Laws.obligation_negate, negatePort_eq_none_iff.2 ha, Option.isSome_none]
  rw [exec_of_not_obligation hp, showOn, blockOutputs_neg_of_nonDigit ha, withOut, freeOutputs]

theorem exec_add_of_nonDigit (h : s.inp.a = 0b10#2 ∨ s.inp.b = 0b10#2) :
    exec .add s =
      .next { s with draws := s.draws + 1, out := { s.out with sum := Config.anyBits 2 s.draws } } := by
  have hp : CallerObligation .add s.inp = false := by
    rw [Laws.obligation_add, addPort_eq_none_iff.2 h, Option.isSome_none]
  rw [exec_of_not_obligation hp, showOn, blockOutputs_sum_of_nonDigit h, withOut, freeOutputs]

theorem exec_multiply_of_nonDigit (h : s.inp.a = 0b10#2 ∨ s.inp.b = 0b10#2) :
    exec .multiply s =
      .next { s with draws := s.draws + 1, out := { s.out with prod := Config.anyBits 2 s.draws } } := by
  have hp : CallerObligation .multiply s.inp = false := by
    rw [Laws.obligation_multiply, multiplyPort_eq_none_iff.2 h, Option.isSome_none]
  rw [exec_of_not_obligation hp, showOn, blockOutputs_prod_of_nonDigit h, withOut, freeOutputs]

/-! ## The statements -/

/-- Settles O13: a table with a non-digit operand has no entry, so the machine shows the draw and the circuit its free value;
`negate` does not read `b`. -/
theorem nonDigitTableOperandGivesAnyValue : Obligations.NonDigitTableOperandGivesAnyValue := by
  constructor
  · intro s ha
    refine ⟨exec_negate_of_nonDigit ha, exec_add_of_nonDigit (.inl ha), exec_multiply_of_nonDigit (.inl ha),
      fun strict x y z => ⟨{ s.out with neg := x, sum := y, prod := z }, ?_⟩⟩
    exact ⟨blockOutputs_neg_of_nonDigit ha, blockOutputs_sum_of_nonDigit (.inl ha),
      blockOutputs_prod_of_nonDigit (.inl ha)⟩
  · intro s ha hb
    refine ⟨exec_add_of_nonDigit (.inr hb), exec_multiply_of_nonDigit (.inr hb), exec_negate_of_digit ha,
      fun strict y z => ⟨{ s.out with sum := y, prod := z }, ?_⟩⟩
    exact ⟨blockOutputs_sum_of_nonDigit (.inr hb), blockOutputs_prod_of_nonDigit (.inr hb),
      blockOutputs_neg_of_digit ha⟩

/-- Settles O10: the table is the negative of integers, on which the involution is `-(-n) = n`. -/
theorem negateResult : Obligations.NegateResult :=
  ⟨rfl, fun _ => exec_negate_of_digit, ⟨rfl, rfl, rfl⟩, fun x => ⟨value_NEG x, NEG_NEG x⟩,
    fun _ => negatePort_wires⟩

/-- Settles O11: the table is the clamped sum of integers, from which its laws follow; where it saturates and where it is not
associative is read off its cells. -/
theorem addSaturates : Obligations.AddSaturates :=
  ⟨rfl, fun _ => exec_add_of_digits, value_ADD, ADD_saturates_iff, ADD_comm, ADD_NEG_self, NEG_ADD, ADD_assoc_fails_iff⟩

/-- Settles O12: the table is the product of integers, from which its laws follow, distributivity over the clamped sum
too. -/
theorem multiplyIsExact : Obligations.MultiplyIsExact :=
  ⟨rfl, fun _ => exec_multiply_of_digits, value_MUL, MUL_comm, MUL_assoc,
    fun x => ⟨plus_MUL x, minus_MUL x, MUL_self x⟩, MUL_ADD⟩

end Sys2Proof.Proofs.Arithmetic
end

section
/-! PROOFS. The statements about the encoders (R58 to R66): `pack` is the base-3 number of the unsigned digits, hence a
strictly increasing bijection onto the numbers below `3^N`, and the machine shows it for a bus of digits. -/

namespace Sys2Proof.Proofs.Encoders

open Sys2Proof.Machine

variable {ds es : List Trit} {n k v : Nat} {x y : SeqBus n}

/-! ## `pack` digit by digit -/

@[simp] theorem pack_nil : pack [] = 0 := rfl

/-- The first digit is the most significant one (R58). -/
theorem pack_cons (d : Trit) (ds : List Trit) : pack (d :: ds) = u d * 3 ^ ds.length + pack ds := by
  rw [pack, List.map_cons, Laws.horner_cons, List.length_map, pack]

/-- One more round of the loop (R58). -/
theorem pack_concat (ds : List Trit) (d : Trit) : pack (ds ++ [d]) = pack ds * 3 + u d := by
  rw [pack, List.map_append, List.map_singleton, Laws.horner_concat, pack]

theorem pack_lt (ds : List Trit) : pack ds < 3 ^ ds.length := by
  simpa [pack] using Laws.horner_lt _ (Laws.pack_digits_lt ds)

/-- The number of a constant sequence: a geometric sum, here without a division. -/
theorem pack_replicate (n : Nat) (d : Trit) : 2 * pack (List.replicate n d) + u d = u d * 3 ^ n := by
  induction n with
  | zero => simp
  | succ n ih =>
    rw [List.replicate_succ, pack_cons, List.length_replicate, pow_succ]
    linarith

theorem pack_replicate_minus (n : Nat) : pack (List.replicate n .minus) = 0 := by
  have h : 2 * pack (List.replicate n .minus) + 0 = 0 * 3 ^ n := pack_replicate n .minus
  omega

theorem pack_replicate_zero (n : Nat) : pack (List.replicate n .zero) = (3 ^ n - 1) / 2 := by
  have h : 2 * pack (List.replicate n .zero) + 1 = 1 * 3 ^ n := pack_replicate n .zero
  omega

theorem pack_replicate_plus (n : Nat) : pack (List.replicate n .plus) = 3 ^ n - 1 := by
  have h : 2 * pack (List.replicate n .plus) + 2 = 2 * 3 ^ n := pack_replicate n .plus
  omega

/-! ## `unpack?` is the inverse of `pack` -/

theorem pack_map_uInv_numeral (h : v < 3 ^ n) : pack ((numeral 3 n v).map uInv) = v := by
  have hdigits : ((numeral 3 n v).map uInv).map u = numeral 3 n v := by
    rw [List.map_map]
    conv_rhs => rw [← List.map_id (numeral 3 n v)]
    exact List.map_congr_left fun r hr => Laws.u_uInv (Laws.numeral_lt (by decide) n v r hr)
  rw [pack, hdigits, Laws.horner_numeral h]

/-- What `unpack?` answers is the one sequence of `n` digits with that number (R64). -/
theorem unpack?_eq_some_iff : unpack? n v = some ds ↔ ds.length = n ∧ pack ds = v := by
  constructor
  · intro h
    refine ⟨Laws.unpack?_length h, ?_⟩
    rw [unpack?] at h
    split at h
    next hlt =>
      obtain rfl := Option.some.inj h
      exact pack_map_uInv_numeral hlt
    next => cases h
  · rintro ⟨rfl, rfl⟩
    rw [unpack?, if_pos (pack_lt ds), Laws.numeral_pack]

theorem pack_inj (hd : ds.length = n) (he : es.length = n) : pack ds = pack es ↔ ds = es := by
  refine ⟨fun h => ?_, congrArg pack⟩
  have hds : unpack? n (pack es) = some ds := unpack?_eq_some_iff.2 ⟨hd, h⟩
  have hes : unpack? n (pack es) = some es := unpack?_eq_some_iff.2 ⟨he, rfl⟩
  exact Option.some.inj (hds.symm.trans hes)

theorem exists_pack_eq (h : v < 3 ^ n) : ∃ ds : List Trit, ds.length = n ∧ pack ds = v := by
  obtain ⟨ds, hds⟩ := Option.isSome_iff_exists.1 (Scope.unpack?_isSome_iff.2 h)
  exact ⟨ds, unpack?_eq_some_iff.1 hds⟩

theorem pack_eq_zero_iff (h : ds.length = n) : pack ds = 0 ↔ ds = List.replicate n .minus := by
  rw [← pack_inj h List.length_replicate, pack_replicate_minus]

theorem pack_eq_largest_iff (h : ds.length = n) : pack ds = 3 ^ n - 1 ↔ ds = List.replicate n .plus := by
  rw [← pack_inj h List.length_replicate, pack_replicate_plus]

/-! ## `pack` and the lexicographic order -/

/-- Numbers with one leading digit before a remainder below the base compare by the leading digit first. -/
theorem mul_add_lt_mul_add_iff {a b r q base : Nat} (hr : r < base) (hq : q < base) :
    a * base + r < b * base + q ↔ a < b ∨ a = b ∧ r < q := by
  rcases lt_trichotomy a b with h | rfl | h
  · exact iff_of_true (by nlinarith) (.inl h)
  · simp
  · exact iff_of_false (by nlinarith) (by omega)

theorem u_lt_u_iff (d e : Trit) : u d < u e ↔ value d < value e := by
  have hd := Laws.u_eq_value_add_one d
  have he := Laws.u_eq_value_add_one e
  omega

/-- On sequences of one length `pack` orders as the lexicographic order does (R64). -/
theorem pack_lt_pack_iff (h : ds.length = es.length) : pack ds < pack es ↔ ds.map value < es.map value := by
  induction ds generalizing es with
  | nil =>
    obtain rfl := List.length_eq_zero_iff.1 h.symm
    simp
  | cons d ds ih =>
    cases es with
    | nil => cases h
    | cons e es =>
      have hl : ds.length = es.length := Nat.succ.inj h
      have hds : pack ds < 3 ^ es.length := hl ▸ pack_lt ds
      rw [pack_cons, pack_cons, hl, mul_add_lt_mul_add_iff hds (pack_lt es), List.map_cons, List.map_cons,
        List.cons_lt_cons_iff, u_lt_u_iff, Laws.u_injective.eq_iff, Arithmetic.value_injective.eq_iff, ih hl]

/-! ## The closed forms -/

/-- The sum of the digits, each read by `f`, with weights `3^(N−1−i)` (R63). -/
def weightedSum {R : Type} [CommSemiring R] (f : Trit → R) (ds : List Trit) : R :=
  ((List.range ds.length).map fun i => f (ds.getD i .zero) * 3 ^ (ds.length - 1 - i)).sum

theorem weightedSum_cons {R : Type} [CommSemiring R] (f : Trit → R) (d : Trit) (ds : List Trit) :
    weightedSum f (d :: ds) = f d * 3 ^ ds.length + weightedSum f ds := by
  rw [weightedSum, List.length_cons, List.range_succ_eq_map, List.map_cons, List.sum_cons, List.map_map, weightedSum]
  congr 2
  refine List.map_congr_left fun i _ => ?_
  rw [Function.comp_apply, List.getD_cons_succ]
  congr 2
  omega

theorem balancedSum_cons (d : Trit) (ds : List Trit) :
    balancedSum (d :: ds) = value d * 3 ^ ds.length + balancedSum ds :=
  weightedSum_cons value d ds

theorem pack_eq_weightedSum (ds : List Trit) : pack ds = weightedSum u ds := by
  induction ds with
  | nil => rfl
  | cons d ds ih => rw [pack_cons, weightedSum_cons, ih]

/-- Reading each digit as `d + 1` adds the number of the all-ones sequence, here without a division (R63). -/
theorem two_mul_pack (ds : List Trit) : 2 * (pack ds : Int) = 2 * balancedSum ds + (3 ^ ds.length - 1) := by
  induction ds with
  | nil => rfl
  | cons d ds ih =>
    rw [pack_cons, balancedSum_cons, List.length_cons, pow_succ]
    push_cast
    rw [Laws.u_eq_value_add_one]
    linarith

/-- Settles O18: one digit more in front adds the same weight on both sides, and the range of the balanced integer is that of
`pack` moved by the bias. -/
theorem packIsTheBalancedValuePlusABias : Obligations.PackIsTheBalancedValuePlusABias := by
  refine ⟨fun ds => ?_, by decide⟩
  have hbias := two_mul_pack ds
  have hlt : (pack ds : Int) < 3 ^ ds.length := by exact_mod_cast pack_lt ds
  exact ⟨pack_eq_weightedSum ds, by omega, by omega, by omega⟩

/-- Settles O19: `unpack?` is the inverse of `pack`, the ends are the numbers of constant sequences, and the order is by
induction on the sequences. -/
theorem packIsAnOrderedBijection : Obligations.PackIsAnOrderedBijection := by
  refine ⟨fun n => ⟨?each, pack_replicate_zero n, ?onto, ?pairs⟩, by decide⟩
  case each =>
    rintro ds rfl
    exact ⟨Nat.le_sub_one_of_lt (pack_lt ds), pack_eq_zero_iff rfl, pack_eq_largest_iff rfl,
      unpack?_eq_some_iff.2 ⟨rfl, rfl⟩⟩
  case onto =>
    intro v hv
    exact exists_pack_eq (Nat.lt_of_le_sub_one (by positivity) hv)
  case pairs =>
    intro ds es hd he
    exact ⟨(pack_inj hd he).1, pack_lt_pack_iff (hd.trans he.symm)⟩

/-! ## The accumulator in `w` bits -/

/-- The loop in `w`-bit arithmetic gives the number modulo `2^w`, at every width. -/
theorem foldl_bitVec_eq_ofNat_pack (w : Nat) (ds : List Trit) :
    ds.foldl (fun (acc : BitVec w) d => acc * BitVec.ofNat w 3 + BitVec.ofNat w (u d)) 0 =
      BitVec.ofNat w (pack ds) := by
  induction ds using List.reverseRecOn with
  | nil => rfl
  | append_singleton ds d ih =>
    rw [List.foldl_append, ih, List.foldl_cons, List.foldl_nil, pack_concat, BitVec.ofNat_add, BitVec.ofNat_mul]

/-- Settles O21: the accumulator is the number of the digits read so far, and the number of them all fits in `w` bits. -/
theorem packAccumulatorNeverOverflows : Obligations.PackAccumulatorNeverOverflows := by
  constructor
  · intro ds k hk
    have h := pack_lt (ds.take k)
    rw [List.length_take_of_le hk] at h
    exact Nat.le_sub_one_of_lt h
  · intro ds w hw
    rw [foldl_bitVec_eq_ofNat_pack, Laws.pack_toNat hw rfl]

/-! ## The closed form on wires -/

theorem exists_bus_of_wireDigits (h : WireDigits n x) : ∃ ds : List Trit, ds.length = n ∧ x = bus n ds :=
  Laws.isDigitBus_iff.1 ((Laws.wireDigits_iff x).1 h)

theorem wireDigits_bus (h : ds.length = n) : WireDigits n (bus n ds) :=
  (Laws.wireDigits_iff _).2 (Laws.isDigitBus_iff.2 ⟨ds, h, rfl⟩)

/-- On a bus of digits the sum over the wires is the number of the digits (R37, R63). -/
theorem packSum_bus (h : ds.length = n) : packSum n (bus n ds) = pack ds := by
  subst h
  rw [pack_eq_weightedSum, packSum, weightedSum]
  congr 1
  refine List.map_congr_left fun i hi => ?_
  have hd : ds[i]? = some (ds.getD i .zero) := by
    have := List.mem_range.1 hi
    simp [this]
  rw [Laws.wirePair_bus rfl hd, Laws.code_add_one_toNat]

theorem packSum_lt (h : WireDigits n x) : packSum n x < 3 ^ n := by
  obtain ⟨ds, rfl, rfl⟩ := exists_bus_of_wireDigits h
  rw [packSum_bus rfl]
  exact pack_lt ds

theorem packSum_injective (hx : WireDigits n x) (hy : WireDigits n y) (h : packSum n x = packSum n y) : x = y := by
  obtain ⟨ds, hds, rfl⟩ := exists_bus_of_wireDigits hx
  obtain ⟨es, hes, rfl⟩ := exists_bus_of_wireDigits hy
  rw [packSum_bus hds, packSum_bus hes, pack_inj hds hes] at h
  rw [h]

theorem exists_packSum_eq (h : v < 3 ^ n) : ∃ x : SeqBus n, WireDigits n x ∧ packSum n x = v := by
  obtain ⟨ds, hds, rfl⟩ := exists_pack_eq h
  exact ⟨bus n ds, wireDigits_bus hds, packSum_bus hds⟩

theorem packSum_toNat (hx : WireDigits n x) (hk : 3 ^ n ≤ 2 ^ k) :
    (BitVec.ofNat k (packSum n x)).toNat = packSum n x := by
  rw [BitVec.toNat_ofNat, Nat.mod_eq_of_lt ((packSum_lt hx).trans_le hk)]

/-- The output's bits from `m` on are zero where `3^n` fits in `m` bits. -/
theorem packSum_getLsbD_eq_false {m j : Nat} (hx : WireDigits n x) (hm : 3 ^ n ≤ 2 ^ m) (hj : m ≤ j) :
    (BitVec.ofNat k (packSum n x)).getLsbD j = false := by
  have hlt : packSum n x < 2 ^ j := (packSum_lt hx).trans_le (hm.trans (Nat.pow_le_pow_right (by decide) hj))
  rw [BitVec.getLsbD_ofNat, Nat.testBit_lt_two_pow hlt, Bool.and_false]

/-! ## The encoders on the machine -/

theorem packPort_of_wireDigits (h : WireDigits n x) : packPort n k x = some (BitVec.ofNat k (packSum n x)) := by
  obtain ⟨ds, hds, rfl⟩ := exists_bus_of_wireDigits h
  rw [Laws.packPort_bus hds, packSum_bus hds]

theorem packPort_of_nonDigit (h : ∃ i, i < n ∧ wirePair n x i = 0b10#2) : packPort n k x = none := by
  rw [packPort, Encoding.seqOfBus_eq_none_iff_wirePair.2 h]

/-- Settles O15: on digits the port is defined and shows the number of the digits, which is below `3^5`. -/
theorem pack5Result : Obligations.Pack5Result := by
  refine ⟨rfl, by decide, fun _ _ => packSum_injective, ?onto, ?machine⟩
  case onto =>
    intro v hv
    exact exists_packSum_eq (Nat.lt_succ_of_le hv)
  case machine =>
    intro s h
    have hlt := packSum_lt h
    refine ⟨?_, Nat.le_of_lt_succ hlt, ?_⟩
    · rw [exec, execPack5, packPort_of_wireDigits h, Laws.resolve_some, withOut]
    · rw [Laws.sparePort_eq, packSum_toNat h (by decide), inRange, decide_eq_true hlt, Bool.not_true]

/-- Settles O16: on digits the port is defined and shows the number of the digits, which is below `3^9`, so below `2^15`. -/
theorem pack9Result : Obligations.Pack9Result := by
  refine ⟨rfl, by decide, fun s h => ⟨?_, Nat.le_of_lt_succ (packSum_lt h), ?_⟩⟩
  · rw [exec, execPack9, packPort_of_wireDigits h, Laws.resolve_some, withOut]
  · exact packSum_getLsbD_eq_false h (by decide : 3 ^ 9 ≤ 2 ^ 15) le_rfl

/-- Settles O17: on digits the port is defined and shows the number of the digits, which is below `3^27`, so below `2^43`. -/
theorem pack27Result : Obligations.Pack27Result := by
  refine ⟨rfl, by decide, fun s h => ⟨?_, Nat.le_of_lt_succ (packSum_lt h), fun j => ?_⟩⟩
  · rw [exec, execPack27, packPort_of_wireDigits h, Laws.resolve_some, withOut]
  · exact packSum_getLsbD_eq_false h (by decide : 3 ^ 27 ≤ 2 ^ 43)

/-- Settles O20: a bus with a non-digit pair spells no sequence, so the port function answers nothing; the machine then shows
the draw and the circuit its free value. -/
theorem nonDigitPackGivesAnyValue : Obligations.NonDigitPackGivesAnyValue := by
  refine ⟨fun s h => ⟨?exec5, fun strict x => ⟨{ s.out with encP5 := x }, ?free5⟩⟩,
    fun s h => ⟨?exec9, fun strict x => ⟨{ s.out with encP9 := x }, ?free9⟩⟩,
    fun s h => ⟨?exec27, fun strict x => ⟨{ s.out with encP27 := x }, ?free27⟩⟩⟩
  case exec5 => rw [exec, execPack5, packPort_of_nonDigit h, Laws.resolve_none, withOut]
  case exec9 => rw [exec, execPack9, packPort_of_nonDigit h, Laws.resolve_none, withOut]
  case exec27 => rw [exec, execPack27, packPort_of_nonDigit h, Laws.resolve_none, withOut]
  case free5 | free9 | free27 => rw [blockOutputs, packPort_of_nonDigit h, Option.getD_none]

end Sys2Proof.Proofs.Encoders
end

section
/-! PROOFS. The statements about the decoders (R67 to R77): on its ports a decoder is the inverse of the encoder of its width,
it shows the base-3 numeral of a number below `3^N`, and from `3^N` on its output is free. -/

namespace Sys2Proof.Proofs.Decoders

open Sys2Proof.Machine

variable {n k : Nat} {p : BitVec k} {x : SeqBus n} {s : State}

/-! ## The port functions -/

/-- What a decoder defines is the bus of the one sequence with that number (R68). -/
theorem unpackPort_eq_some_iff :
    unpackPort n p = some x ↔ ∃ ds : List Trit, ds.length = n ∧ pack ds = p.toNat ∧ bus n ds = x := by
  rw [unpackPort]
  constructor
  · intro h
    split at h
    next ds hds =>
      obtain ⟨hlen, hpack⟩ := Encoders.unpack?_eq_some_iff.1 hds
      exact ⟨ds, hlen, hpack, Option.some.inj h⟩
    next => cases h
  · rintro ⟨ds, hlen, hpack, rfl⟩
    rw [Encoders.unpack?_eq_some_iff.2 ⟨hlen, hpack⟩]

/-- Decoding what the encoder shows gives the bus back, where `3^n` fits in the port (R72). -/
theorem unpackPort_of_packPort (hk : 3 ^ n ≤ 2 ^ k) (h : packPort n k x = some p) : unpackPort n p = some x := by
  have hdigits : isDigitBus n x = true := by rw [← Laws.packPort_isSome, h, Option.isSome_some]
  obtain ⟨ds, hlen, rfl⟩ := Laws.isDigitBus_iff.1 hdigits
  obtain rfl := Option.some.inj ((Laws.packPort_bus hlen).symm.trans h)
  exact unpackPort_eq_some_iff.2 ⟨ds, hlen, (Laws.pack_toNat hk hlen).symm, rfl⟩

/-- Encoding what the decoder shows gives the number back, on a port of any width (R72). -/
theorem packPort_of_unpackPort (h : unpackPort n p = some x) : packPort n k x = some p := by
  obtain ⟨ds, hlen, hpack, rfl⟩ := unpackPort_eq_some_iff.1 h
  rw [Laws.packPort_bus hlen, hpack, BitVec.ofNat_toNat, BitVec.setWidth_eq]

/-- A remainder modulo 3 spells the digit one below it (R37). -/
theorem code_uInv {r : Nat} (h : r < 3) : code (uInv r) = BitVec.ofInt 2 ((r : Int) - 1) := by
  have hvalue : value (uInv r) = r - 1 := by
    rw [eq_sub_iff_add_eq, ← Laws.u_eq_value_add_one, Laws.u_uInv h]
  rw [Arithmetic.code_eq_ofInt, hvalue]

/-- What a decoder shows is the base-3 numeral of its input, pair by pair (R76). -/
theorem wireUnpacked_of_unpackPort (h : unpackPort n p = some x) : WireUnpacked n p.toNat x := by
  have hrange : p.toNat < 3 ^ n := by
    obtain ⟨ds, rfl, hpack, -⟩ := unpackPort_eq_some_iff.1 h
    exact hpack ▸ Encoders.pack_lt ds
  obtain rfl := Option.some.inj ((Laws.unpackPort_of_lt hrange).symm.trans h)
  intro i hi
  have hdigit : ((numeral 3 n p.toNat).map uInv)[i]? = some (uInv (p.toNat / 3 ^ (n - 1 - i) % 3)) := by
    rw [List.getElem?_map, Laws.numeral_getElem? hi, Option.map_some]
  rw [Laws.wirePair_bus (by simp) hdigit, code_uInv (Nat.mod_lt _ (by decide))]

/-- A build that is not strict has no `oor` port (R75). -/
@[simp] theorem oorPort_false (n : Nat) (p : BitVec k) : oorPort false n p = none := rfl

/-- A strict build's `oor` port compares the number on the decoder's input with `3^n` (R75). -/
@[simp] theorem oorPort_true (n : Nat) (p : BitVec k) : oorPort true n p = some (decide (3 ^ n ≤ p.toNat)) := rfl

/-- The 5-digit decoder's `oor` output in a strict build is `isSpare` of the same byte (R75, R79). -/
theorem oorPort_eq_sparePort (p : BitVec 8) : oorPort true 5 p = some (sparePort p) :=
  congrArg some (decide_eq_decide.2 Iff.rfl)

/-! ## The codec on the machine -/

theorem exec_pack5_of_packPort {q : BitVec 8} (h : packPort 5 8 s.inp.encS5 = some q) :
    exec .pack5 s = .next { s with out := { s.out with encP5 := q } } := by
  rw [exec, execPack5, h, Laws.resolve_some, withOut]

theorem exec_pack9_of_packPort {q : BitVec 16} (h : packPort 9 16 s.inp.encS9 = some q) :
    exec .pack9 s = .next { s with out := { s.out with encP9 := q } } := by
  rw [exec, execPack9, h, Laws.resolve_some, withOut]

theorem exec_pack27_of_packPort {q : BitVec 48} (h : packPort 27 48 s.inp.encS27 = some q) :
    exec .pack27 s = .next { s with out := { s.out with encP27 := q } } := by
  rw [exec, execPack27, h, Laws.resolve_some, withOut]

theorem exec_unpack5_of_unpackPort {y : SeqBus 5} (h : unpackPort 5 s.inp.decP5 = some y) :
    exec .unpack5 s = .next { s with out := { s.out with decS5 := y, oor5 := none } } := by
  rw [exec, execUnpack5, h, Laws.resolve_some, oorPort_false, withOut]

theorem exec_unpack9_of_unpackPort {y : SeqBus 9} (h : unpackPort 9 s.inp.decP9 = some y) :
    exec .unpack9 s = .next { s with out := { s.out with decS9 := y, oor9 := none } } := by
  rw [exec, execUnpack9, h, Laws.resolve_some, oorPort_false, withOut]

theorem exec_unpack27_of_unpackPort {y : SeqBus 27} (h : unpackPort 27 s.inp.decP27 = some y) :
    exec .unpack27 s = .next { s with out := { s.out with decS27 := y, oor27 := none } } := by
  rw [exec, execUnpack27, h, Laws.resolve_some, oorPort_false, withOut]

/-! ## The statements -/

/-- Settles O26: what the first evaluation defines is, presented to the other module, what that module's port function takes
back, at every width whose numbers fit in the port. -/
theorem encodeThenDecodeGivesTheBusBack : Obligations.EncodeThenDecodeGivesTheBusBack := by
  refine ⟨fun s h => ?decode5, fun s h => ?decode9, fun s h => ?decode27, fun s h => ?encode5, fun s h => ?encode9,
    fun s h => ?encode27⟩
  case decode5 =>
    have hp := Encoders.packPort_of_wireDigits (k := 8) h
    exact ⟨_, _, exec_pack5_of_packPort hp, exec_unpack5_of_unpackPort (unpackPort_of_packPort (by decide) hp), rfl⟩
  case decode9 =>
    have hp := Encoders.packPort_of_wireDigits (k := 16) h
    exact ⟨_, _, exec_pack9_of_packPort hp, exec_unpack9_of_unpackPort (unpackPort_of_packPort (by decide) hp), rfl⟩
  case decode27 =>
    have hp := Encoders.packPort_of_wireDigits (k := 48) h
    exact ⟨_, _, exec_pack27_of_packPort hp, exec_unpack27_of_unpackPort (unpackPort_of_packPort (by decide) hp), rfl⟩
  case encode5 =>
    have hx := Laws.unpackPort_of_lt (n := 5) (Nat.lt_succ_of_le h)
    exact ⟨_, _, exec_unpack5_of_unpackPort hx, exec_pack5_of_packPort (packPort_of_unpackPort hx), rfl⟩
  case encode9 =>
    have hx := Laws.unpackPort_of_lt (n := 9) (Nat.lt_succ_of_le h)
    exact ⟨_, _, exec_unpack9_of_unpackPort hx, exec_pack9_of_packPort (packPort_of_unpackPort hx), rfl⟩
  case encode27 =>
    have hx := Laws.unpackPort_of_lt (n := 27) (Nat.lt_succ_of_le h)
    exact ⟨_, _, exec_unpack27_of_unpackPort hx, exec_pack27_of_packPort (packPort_of_unpackPort hx), rfl⟩

/-- Settles O22: below `3^5` the port is defined, and what is defined there is the numeral. -/
theorem unpack5Result : Obligations.Unpack5Result := by
  refine ⟨rfl, fun s h => ?_⟩
  have hx := Laws.unpackPort_of_lt (n := 5) (Nat.lt_succ_of_le h)
  exact ⟨_, wireUnpacked_of_unpackPort hx, exec_unpack5_of_unpackPort hx⟩

/-- Settles O23: below `3^9` the port is defined, and what is defined there is the numeral. -/
theorem unpack9Result : Obligations.Unpack9Result := by
  refine ⟨rfl, fun s h => ?_⟩
  have hx := Laws.unpackPort_of_lt (n := 9) (Nat.lt_succ_of_le h)
  exact ⟨_, wireUnpacked_of_unpackPort hx, exec_unpack9_of_unpackPort hx⟩

/-- Settles O24: below `3^27` the port is defined, and what is defined there is the numeral. -/
theorem unpack27Result : Obligations.Unpack27Result := by
  refine ⟨rfl, fun s h => ?_⟩
  have hx := Laws.unpackPort_of_lt (n := 27) (Nat.lt_succ_of_le h)
  exact ⟨_, wireUnpacked_of_unpackPort hx, exec_unpack27_of_unpackPort hx⟩

/-- Settles O25: `unpack?` answers the one sequence with the number, and every number below `3^n` has one. -/
theorem packAndUnpackAreInverse : Obligations.PackAndUnpackAreInverse := by
  refine ⟨fun ds => Encoders.unpack?_eq_some_iff.2 ⟨rfl, rfl⟩, fun n v hv => ?_⟩
  obtain ⟨ds, hlen, hpack⟩ := Encoders.exists_pack_eq (Nat.lt_of_le_sub_one (by positivity) hv)
  exact ⟨ds, Encoders.unpack?_eq_some_iff.2 ⟨hlen, hpack⟩, hlen, hpack⟩

/-- Settles O27: in range the port is defined, and what is defined there is the numeral, a bus of digits. -/
theorem unpackedDigitsAreTheNumeral : Obligations.UnpackedDigitsAreTheNumeral := by
  intro n k p hp
  have hx := Laws.unpackPort_of_lt (Nat.lt_of_le_sub_one (by positivity) hp)
  have hdigits := Digit.isDigitBus_of_unpackPort hx
  exact ⟨_, hx, wireUnpacked_of_unpackPort hx, (Laws.wireDigits_iff _).2 hdigits, hdigits⟩

/-- Settles O28: from `3^N` on the port function answers nothing, so the machine shows the draw and the circuit its free
value. -/
theorem outOfRangeUnpackGivesAnyValue : Obligations.OutOfRangeUnpackGivesAnyValue := by
  refine ⟨fun s h => ?unpack5, fun s h => ?unpack9, fun s h => ?unpack27⟩
  case unpack5 =>
    have hx := Encoding.unpackPort_eq_none (n := 5) h
    refine ⟨?_, fun strict x => ⟨{ s.out with decS5 := x }, ?_⟩⟩
    · rw [exec, execUnpack5, hx, Laws.resolve_none, oorPort_false, withOut]
    · rw [blockOutputs, hx, Option.getD_none]
  case unpack9 =>
    have hx := Encoding.unpackPort_eq_none (n := 9) h
    refine ⟨?_, fun strict x => ⟨{ s.out with decS9 := x }, ?_⟩⟩
    · rw [exec, execUnpack9, hx, Laws.resolve_none, oorPort_false, withOut]
    · rw [blockOutputs, hx, Option.getD_none]
  case unpack27 =>
    have hx := Encoding.unpackPort_eq_none (n := 27) h
    refine ⟨?_, fun strict x => ⟨{ s.out with decS27 := x }, ?_⟩⟩
    · rw [exec, execUnpack27, hx, Laws.resolve_none, oorPort_false, withOut]
    · rw [blockOutputs, hx, Option.getD_none]

/-- Settles O29: `strict` reaches the circuit's outputs through `oorPort` alone. -/
theorem strictVariantOnlyAddsOutOfRangeOutputs : Obligations.StrictVariantOnlyAddsOutOfRangeOutputs := by
  refine ⟨rfl, fun free i => ⟨oorPort_false 5 i.decP5, oorPort_false 9 i.decP9, oorPort_false 27 i.decP27,
    oorPort_true 5 i.decP5, oorPort_true 9 i.decP9, oorPort_true 27 i.decP27, oorPort_eq_sparePort i.decP5, ?_⟩⟩
  rw [blockOutputs, blockOutputs]

end Sys2Proof.Proofs.Decoders
end

section
/-! PROOFS. The statement about the spare detector (R78 to R80): `isSpare` says that the byte is not the number of five digits,
and on wires it reads the two halves of the byte. -/

namespace Sys2Proof.Proofs.SpareDetector

open Sys2Proof.Machine

/-- The value form of the detector on its port (R79). -/
theorem sparePort_eq_decide (p : BitVec 8) : sparePort p = decide (243 ≤ p.toNat) := rfl

/-! ## The Boolean form -/

/-- The spare bytes in hexadecimal: the upper half is `0xF` and the lower half is at least 3 (R79). -/
theorem spare_iff_halves {v : Nat} (h : v < 256) : 243 ≤ v ↔ v / 16 = 15 ∧ 3 ≤ v % 16 := by
  omega

theorem decide_toNat_eq_fifteen : ∀ x : BitVec 4,
    decide (x.toNat = 15) = (x.getLsbD 3 && x.getLsbD 2 && x.getLsbD 1 && x.getLsbD 0) := by
  decide

theorem decide_three_le_toNat : ∀ x : BitVec 4,
    decide (3 ≤ x.toNat) = (x.getLsbD 3 || x.getLsbD 2 || (x.getLsbD 1 && x.getLsbD 0)) := by
  decide

theorem sparePort_eq_halves (p : BitVec 8) :
    sparePort p = (decide ((p.extractLsb' 4 4).toNat = 15) && decide (3 ≤ (p.extractLsb' 0 4).toNat)) := by
  rw [sparePort_eq_decide, decide_eq_decide.2 (spare_iff_halves p.isLt), Bool.decide_and,
    BitVec.extractLsb'_toNat, BitVec.extractLsb'_toNat, Nat.shiftRight_eq_div_pow, Nat.shiftRight_zero,
    Nat.mod_eq_of_lt (Nat.div_lt_of_lt_mul p.isLt : p.toNat / 2 ^ 4 < 2 ^ 4)]
  simp only [Nat.reducePow]

theorem sparePort_eq_bits (p : BitVec 8) :
    sparePort p = (p.getLsbD 7 && p.getLsbD 6 && p.getLsbD 5 && p.getLsbD 4 &&
      (p.getLsbD 3 || p.getLsbD 2 || (p.getLsbD 1 && p.getLsbD 0))) := by
  rw [sparePort_eq_halves, decide_toNat_eq_fifteen, decide_three_le_toNat]
  simp

/-! ## The bytes it is true of -/

/-- The numbers of a range from `m` on, in order. -/
theorem filter_le_range_add (m k : Nat) : (List.range (k + m)).filter (m ≤ ·) = (List.range k).map (· + m) := by
  calc (List.range (k + m)).filter (m ≤ ·)
    _ = List.Ico m (k + m) := by rw [← List.Ico.zero_bot, List.Ico.filter_le, Nat.zero_max]
    _ = (List.range k).map (· + m) := by
      rw [← List.Ico.zero_bot k, funext (Nat.add_comm · m), List.Ico.map_add, Nat.zero_add]

theorem sparePort_ofNat {v : Nat} (h : v < 256) : sparePort (BitVec.ofNat 8 v) = decide (243 ≤ v) := by
  rw [sparePort_eq_decide, BitVec.toNat_ofNat, Nat.mod_eq_of_lt h]

theorem spareBytes : ((List.range 256).filter fun v => sparePort (BitVec.ofNat 8 v)) = (List.range 13).map (· + 243) := by
  rw [List.filter_congr fun v hv => sparePort_ofNat (List.mem_range.1 hv)]
  exact filter_le_range_add 243 13

/-! ## The codec of five digits -/

/-- The number of five digits is below `3^5`, so it is never spare (R64, R79). -/
theorem sparePort_pack {ds : List Trit} (h : ds.length = 5) : sparePort (BitVec.ofNat 8 (pack ds)) = false := by
  have hlt : pack ds < 3 ^ 5 := h ▸ Encoders.pack_lt ds
  rw [Laws.sparePort_eq, Laws.pack_toNat (by decide) h, inRange, decide_eq_true hlt, Bool.not_true]

/-- The detector is the guard of the 5-digit decoder (R79, R97). -/
theorem sparePort_eq_false_iff (p : BitVec 8) : sparePort p = false ↔ (unpackPort 5 p).isSome = true := by
  rw [Laws.sparePort_eq, Laws.unpackPort_isSome, Bool.not_eq_false']

/-- Settles O32: the detector compares the byte with `3^5`, which is a test of its two halves, bounds every packed number and
is the range of the decoder. -/
theorem isSpareIsTheRange243To255 : Obligations.IsSpareIsTheRange243To255 := by
  refine ⟨rfl, fun s => ?machine, sparePort_eq_bits, spareBytes, fun _ => sparePort_pack, sparePort_eq_false_iff⟩
  case machine => rw [exec, execIsSpare, sparePort_eq_decide, withOut]

end Sys2Proof.Proofs.SpareDetector
end

section
/-! PROOFS. The statement about exceptions (R81): there are none, since the evaluation of an operation always completes and its
result port is in every build. -/

namespace Sys2Proof.Proofs.Exceptions

open Sys2Proof.Machine

/-- Settles O4: the next state is `evaluated`, whatever the inputs are, and something is read on a result port of any outputs. -/
theorem everyOperationCompletesOnEveryInput : Obligations.EveryOperationCompletesOnEveryInput := by
  intro i s
  obtain ⟨_, hread, _⟩ := Encoding.exists_readOut_resultPort (Evaluation.evaluated i s).out i
  exact ⟨Evaluation.evaluated i s, Evaluation.exec_eq i s, Option.isSome_of_eq_some hread⟩

end Sys2Proof.Proofs.Exceptions
end

section
/-! PROOFS. The statements about what a caller reads (R96 to R99, R103): the combinational circuit on the present inputs, and a
value that the rules define exactly where the caller's obligation is met. -/

namespace Sys2Proof.Proofs.Caller

open Sys2Proof.Machine Sys2Proof.Proofs.Evaluation

/-- Settles O34: with the free values that the evaluation draws from, the circuit is what it shows, port by port. -/
theorem evaluationShowsTheCircuitOutput : Obligations.EvaluationShowsTheCircuitOutput := by
  intro i s
  refine ⟨evaluated i s, freeOutputs s, exec_eq i s, fun q hq => ?_⟩
  rw [readOut_evaluated_of_shown s hq, readOut_blockOutputs]

/-- Settles O35: the obligation says whether the rules define the result, and the circuit shows what they define, or its free
value where they define nothing. -/
theorem callerObligationIsExactlyDefinedness : Obligations.CallerObligationIsExactlyDefinedness := by
  intro i p strict
  simp only [readOut_blockOutputs, ← definedAt_resultPort_isSome strict]
  cases definedAt strict p (resultPort i) with
  | none => exact ⟨fun h => absurd h Bool.false_ne_true, fun _ _ => rfl⟩
  | some r => exact ⟨fun _ _ _ => rfl, fun h => absurd h.symm Bool.false_ne_true⟩

end Sys2Proof.Proofs.Caller
end

section
/-! PROOFS. The statement about how `pack` follows the list operations (vectors V51 to V53): a concatenation shifts the first
number by the second's length, so −1 digits in front add nothing, and a sequence and its negation add up to all twos. -/

namespace Sys2Proof.Proofs.PackOfLists

open Sys2Proof.Machine Sys2Proof.Proofs.Encoders

theorem pack_append (ds es : List Trit) : pack (ds ++ es) = pack ds * 3 ^ es.length + pack es := by
  rw [pack, List.map_append, Laws.horner_append, List.length_map, pack, pack]

theorem pack_replicate_minus_append (n : Nat) (ds : List Trit) : pack (List.replicate n .minus ++ ds) = pack ds := by
  rw [pack_append, pack_replicate_minus, Nat.zero_mul, Nat.zero_add]

/-- Negating a digit reflects its unsigned reading in the middle of 0 to 2 (R37, R52). -/
theorem u_NEG_add_u (d : Trit) : u (NEG d) + u d = 2 := by
  have hneg := Laws.u_eq_value_add_one (NEG d)
  have hd := Laws.u_eq_value_add_one d
  rw [Arithmetic.value_NEG] at hneg
  omega

/-- The two numbers add up to that of the all-plus sequence, here without a subtraction. -/
theorem pack_map_NEG_add_pack (ds : List Trit) : pack (ds.map NEG) + pack ds + 1 = 3 ^ ds.length := by
  induction ds with
  | nil => rfl
  | cons d ds ih =>
    rw [List.map_cons, pack_cons, pack_cons, List.length_map, List.length_cons]
    calc u (NEG d) * 3 ^ ds.length + pack (ds.map NEG) + (u d * 3 ^ ds.length + pack ds) + 1
        = (u (NEG d) + u d) * 3 ^ ds.length + (pack (ds.map NEG) + pack ds + 1) := by ring
      _ = 3 ^ (ds.length + 1) := by rw [u_NEG_add_u, ih]; ring

/-- Settles O31: the loop over a concatenation goes on from the first number, leading −1 digits have the number 0, and the
negation follows from the sum of the two numbers. -/
theorem packOfConcatenationPaddingAndNegation : Obligations.PackOfConcatenationPaddingAndNegation := by
  refine ⟨pack_append, pack_replicate_minus_append, fun ds => ?_⟩
  have hsum := pack_map_NEG_add_pack ds
  omega

end Sys2Proof.Proofs.PackOfLists
end
